-- ==== Sys2Proof/Word.lean ====
section
/-! DEFINITION. The widths of the block's values (00_scope.md R11): bytes, 16-bit data and 32-bit words, all unsigned. -/

namespace Sys2Proof

/-- A byte: 8 bits (R11). -/
abbrev Byte := BitVec 8

/-- The 16-bit operand of OUT.WRITEWORD (30_encoding.md R72). -/
abbrev Half := BitVec 16

/-- A 32-bit word: a command word or a host register (30_encoding.md R70, 20_memory.md R51). -/
abbrev Word := BitVec 32

end Sys2Proof
end

