-- ==== Sys2Proof/Config.lean ====
section
/-! DEFINITION. What is fixed for an engine (00_scope.md R7 to R10, 20_memory.md R51), and the free values: constants with
no body, of which nothing can be proved but that they are what they are. -/

namespace Sys2Proof

/-- KIND: an input expander controller or an output expander controller (R2, R10). -/
inductive Kind where
  | iec
  | oec
  deriving DecidableEq, Repr

/-- BOUND: for each capability, whether the host supplied it (R9). The two kinds share `gpioInit`, `setClock` and `delay`;
each kind reads only the capabilities of its own list. -/
structure Bound where
  gpioInit        : Bool
  setLoad         : Bool
  setClock        : Bool
  readData        : Bool
  setLatch        : Bool
  setData         : Bool
  setOutputEnable : Bool
  delay           : Bool
  deriving DecidableEq, Repr

/-- The parameters of an engine: KIND, N, DELAY_UNIT and BOUND (R10), its base address BASE (R51) and the physical lines
its capabilities are bound to (60_exceptions.md R225). No step writes them (10_state.md R22). -/
structure Params where
  kind      : Kind
  /-- N, the cascade width (R7). -/
  n         : Nat
  /-- DELAY_UNIT, the argument of every delay call (R8). Its type is the model's (DESIGN CHOICE, log entry 16). -/
  delayUnit : Nat
  bound     : Bound
  /-- BASE, the address of offset 0x0000 of the register window (R51). -/
  base      : Nat
  /-- The numbers of the physical lines the capabilities drive or sample (R225; DESIGN CHOICE, log entry 13). -/
  lines     : List Nat
  deriving DecidableEq, Repr

namespace Config

/-- U1: the duration argument of the engines at reset. The source gives no value (R8). -/
opaque delayUnit : Nat

/-- U4: the level of a data line under no law (R14), by the base address of the engine and the engine's count of free
values (log entry 1). -/
opaque freeSample (base fresh : Nat) : Bool

/-- U8: the serial input SI of the last input chip (60_exceptions.md R216), likewise. -/
opaque freeSerialIn (base fresh : Nat) : Bool

/-- U6: the level a chip sees on a data line that the engine has not driven, likewise (log entry 11). -/
opaque freeLevel (base fresh : Nat) : Bool

/-- U5: byte `k` of XBUF after a reset (10_state.md R39), likewise (log entry 2). -/
opaque freeXbuf (base fresh k : Nat) : Byte

/-- Every capability supplied. -/
def allBound : Bound where
  gpioInit := true
  setLoad := true
  setClock := true
  readData := true
  setLatch := true
  setData := true
  setOutputEnable := true
  delay := true

/-- The IEC of the system at reset. DESIGN CHOICE (log entry 3): the spec leaves the parameters to the host. -/
def iecParams : Params where
  kind := .iec
  n := 2
  delayUnit := delayUnit
  bound := allBound
  base := 0x00000
  lines := [0, 1, 2]

/-- The OEC of the system at reset. DESIGN CHOICE (log entry 3). -/
def oecParams : Params where
  kind := .oec
  n := 2
  delayUnit := delayUnit
  bound := allBound
  base := 0x10000
  lines := [3, 4, 5, 6]

end Config

end Sys2Proof
end

