-- ==== Sys2Proof/Syntax.lean ====
section
/-! DEFINITION. The commands: one constructor per row of spec/opcode_table.json (30_encoding.md R73), with the operands of
its format (R71, R72), the engine group each belongs to, and the pseudo-instructions of R80. -/

namespace Sys2Proof

/-- The 14 commands of R73. LEN and IDX are counts (R72: zero-extended, never scaled), so they are natural numbers;
`Instr.wellFormed` says that they fit their fields. -/
inductive Instr where
  | inInit
  | inLoad
  | inReadbyte
  | inReadword
  | inReadall (len : Nat)
  | inReadbit (idx : Nat)
  | outInit
  | outEnable
  | outDisable
  | outWritebyte (data : Byte)
  | outWriteword (data : Half)
  | outWriteall (len : Nat)
  | outWritebit (idx : Nat) (v : Bool)
  | outDeinit
  deriving DecidableEq, Repr

namespace Instr

/-- The engine a command belongs to (R73, R74). -/
def kind : Instr → Kind
  | inInit => .iec
  | inLoad => .iec
  | inReadbyte => .iec
  | inReadword => .iec
  | inReadall _ => .iec
  | inReadbit _ => .iec
  | outInit => .oec
  | outEnable => .oec
  | outDisable => .oec
  | outWritebyte _ => .oec
  | outWriteword _ => .oec
  | outWriteall _ => .oec
  | outWritebit _ _ => .oec
  | outDeinit => .oec

/-- The init commands, the only ones an engine with READY = 0 accepts (40_input_chain.md R100, 41_output_chain.md R140). -/
def isInit : Instr → Bool
  | inInit => true
  | inLoad => false
  | inReadbyte => false
  | inReadword => false
  | inReadall _ => false
  | inReadbit _ => false
  | outInit => true
  | outEnable => false
  | outDisable => false
  | outWritebyte _ => false
  | outWriteword _ => false
  | outWriteall _ => false
  | outWritebit _ _ => false
  | outDeinit => false

/-- Pseudo-instruction `out.set IDX` (R80). -/
abbrev outSet (idx : Nat) : Instr := outWritebit idx true

/-- Pseudo-instruction `out.clr IDX` (R80). -/
abbrev outClr (idx : Nat) : Instr := outWritebit idx false

/-- `in.readall` with no operand, for an engine of width `n` (R80). -/
abbrev inReadallN (n : Nat) : Instr := inReadall n

/-- `out.writeall` with no operand, for an engine of width `n` (R80). -/
abbrev outWriteallN (n : Nat) : Instr := outWriteall n

end Instr

end Sys2Proof
end

