-- ==== Sys2Proof/WellFormed.lean ====
section
/-! DEFINITION. When a command's operands fit the fields of its format (30_encoding.md R71, R79: "each must fit its field
of rule R71 or the assembler rejects the line"), and when an engine's parameters are in range (00_scope.md R7). -/

namespace Sys2Proof

/-- Every operand fits its field. LEN and IDX have 16 bits; DATA8, DATA16 and V fit by their type. -/
def Instr.wellFormed : Instr → Bool
  | .inInit => true
  | .inLoad => true
  | .inReadbyte => true
  | .inReadword => true
  | .inReadall len => decide (len < 65536)
  | .inReadbit idx => decide (idx < 65536)
  | .outInit => true
  | .outEnable => true
  | .outDisable => true
  | .outWritebyte _ => true
  | .outWriteword _ => true
  | .outWriteall len => decide (len < 65536)
  | .outWritebit idx _ => decide (idx < 65536)
  | .outDeinit => true

/-- `1 <= N <= 8192` (R7). -/
def Params.wellFormed (p : Params) : Bool := decide (1 ≤ p.n) && decide (p.n ≤ 8192)

end Sys2Proof
end

