-- ==== Sys2Proof/Decode.lean ====
section
/-! DEFINITION. Decoding a command word (30_encoding.md R70 to R77), total on every word and rejecting by name, and the
encoder, from the same tables. -/

namespace Sys2Proof

/-- The six formats of R71. -/
inductive Format where
  | n
  | d8
  | d16
  | l
  | b
  | bv
  deriving DecidableEq, Repr

/-- The bits a format shows as 0 in R71, which must be zero (R77 `reserved_mask`). -/
def Format.reservedMask : Format → Word
  | .n => 0xFFFFFF00#32
  | .d8 => 0xFFFF0000#32
  | .d16 => 0xFF000000#32
  | .l => 0xFF000000#32
  | .b => 0xFF000000#32
  | .bv => 0xFE000000#32

/-- Why a word is no command of an engine (R75 (a) and (b)); either way the command completes with BAD_COMMAND. -/
inductive BadWord where
  /-- R75 (a): OP is not in the engine's group. -/
  | opcode
  /-- R75 (b): a reserved field of the format is not zero. -/
  | reservedField
  deriving DecidableEq, Repr

/-- OP = w[7:0] (R70). -/
def opField (w : Word) : Byte := w.extractLsb' 0 8

/-- DATA8 = w[15:8] (R72). -/
def data8Field (w : Word) : Byte := w.extractLsb' 8 8

/-- DATA16 = w[23:8] (R72). -/
def data16Field (w : Word) : Half := w.extractLsb' 8 16

/-- LEN or IDX = w[23:8], zero-extended (R72), as a number. -/
def countField (w : Word) : Nat := (w.extractLsb' 8 16).toNat

/-- V = w[24] (R72). -/
def valueField (w : Word) : Bool := w.getLsbD 24

/-- The opcode map of R73, by engine group (R74): the format of an opcode and the command its fields make. -/
def commandOf : Kind → Word → Option (Format × Instr)
  | .iec, w =>
    let op := opField w
    if op = 0x01#8 then some (.n, .inInit)
    else if op = 0x02#8 then some (.n, .inLoad)
    else if op = 0x03#8 then some (.n, .inReadbyte)
    else if op = 0x04#8 then some (.n, .inReadword)
    else if op = 0x05#8 then some (.l, .inReadall (countField w))
    else if op = 0x06#8 then some (.b, .inReadbit (countField w))
    else none
  | .oec, w =>
    let op := opField w
    if op = 0x11#8 then some (.n, .outInit)
    else if op = 0x12#8 then some (.n, .outEnable)
    else if op = 0x13#8 then some (.n, .outDisable)
    else if op = 0x14#8 then some (.d8, .outWritebyte (data8Field w))
    else if op = 0x15#8 then some (.d16, .outWriteword (data16Field w))
    else if op = 0x16#8 then some (.l, .outWriteall (countField w))
    else if op = 0x17#8 then some (.bv, .outWritebit (countField w) (valueField w))
    else if op = 0x18#8 then some (.n, .outDeinit)
    else none

/-- R77: decoding is a total function of KIND and the word. -/
def decode (k : Kind) (w : Word) : Except BadWord Instr :=
  match commandOf k w with
  | none => .error .opcode
  | some (f, i) => if w &&& f.reservedMask = 0#32 then .ok i else .error .reservedField

/-- The format of a command (R73). -/
def Instr.format : Instr → Format
  | .inInit => .n
  | .inLoad => .n
  | .inReadbyte => .n
  | .inReadword => .n
  | .inReadall _ => .l
  | .inReadbit _ => .b
  | .outInit => .n
  | .outEnable => .n
  | .outDisable => .n
  | .outWritebyte _ => .d8
  | .outWriteword _ => .d16
  | .outWriteall _ => .l
  | .outWritebit _ _ => .bv
  | .outDeinit => .n

/-- The opcode of a command (R73). -/
def Instr.opcode : Instr → Byte
  | .inInit => 0x01#8
  | .inLoad => 0x02#8
  | .inReadbyte => 0x03#8
  | .inReadword => 0x04#8
  | .inReadall _ => 0x05#8
  | .inReadbit _ => 0x06#8
  | .outInit => 0x11#8
  | .outEnable => 0x12#8
  | .outDisable => 0x13#8
  | .outWritebyte _ => 0x14#8
  | .outWriteword _ => 0x15#8
  | .outWriteall _ => 0x16#8
  | .outWritebit _ _ => 0x17#8
  | .outDeinit => 0x18#8

/-- Bits 31 down to 8 of a command's word: its fields at the places of R71, the reserved bits zero. -/
def Instr.operandBits : Instr → BitVec 24
  | .inInit => 0#24
  | .inLoad => 0#24
  | .inReadbyte => 0#24
  | .inReadword => 0#24
  | .inReadall len => 0#8 ++ BitVec.ofNat 16 len
  | .inReadbit idx => 0#8 ++ BitVec.ofNat 16 idx
  | .outInit => 0#24
  | .outEnable => 0#24
  | .outDisable => 0#24
  | .outWritebyte data => 0#16 ++ data
  | .outWriteword data => 0#8 ++ data
  | .outWriteall len => 0#8 ++ BitVec.ofNat 16 len
  | .outWritebit idx v => 0#7 ++ (BitVec.ofBool v ++ BitVec.ofNat 16 idx)
  | .outDeinit => 0#24

/-- The word of a command (R71, R73). -/
def encode (i : Instr) : Word := i.operandBits ++ i.opcode

/-- The command the decoder reads from a word of the opcode table, numbered as the table numbers its bits. The word alone
says which engine group it can belong to, since the groups are disjoint (R74): the engine is the one that decodes it. -/
def decodeTableWord (nbits w : Nat) : Option Instr :=
  let word : Word := BitVec.ofNat 32 (w % 2 ^ nbits)
  match decode .iec word with
  | .ok i => some i
  | .error _ =>
    match decode .oec word with
    | .ok i => some i
    | .error _ => none

end Sys2Proof
end

