-- ==== Sys2Proof/Machine/State.lean ====
section
/-! DEFINITION. The state of an engine (10_state.md R22 to R31), of a chip attached to it (60_exceptions.md R216 to R219),
of the system of engines with the host's coming actions, the refusals of the model, and reset (R39, R240). -/

namespace Sys2Proof.Machine

/-- The level an engine last drove on a line; `undriven` is U, not yet driven by this engine (R29, R31). -/
inductive Level where
  | low
  | high
  | undriven
  deriving DecidableEq, Repr

/-- The level of a driven bit: false is 0, true is 1 (00_scope.md R13). -/
def Level.ofBool : Bool → Level
  | false => .low
  | true => .high

/-- Pin events (00_scope.md R13): each is one call of the capability of that name. -/
inductive Event where
  | gpioInit
  | setLoad (b : Bool)
  | setClock (b : Bool)
  | readData (d : Bool)
  | setLatch (b : Bool)
  | setData (b : Bool)
  | setOutputEnable (b : Bool)
  | delay (t : Nat)
  deriving DecidableEq, Repr

/-- The reference input expander (R216). `inputs` is P, with input j of chip c at place 8c+j; `shift` is T, in sample order;
`clk` is the last clock level seen; `loop` is the OEC whose storage stage is wired to P, if any (R220). -/
structure InputChip where
  inputs : List Bool
  shift  : List Bool
  clk    : Level
  loop   : Option Nat
  deriving DecidableEq, Repr

/-- The reference output expander: `shift` is S (R217), `storage` is Q (R218); output j of chip c is at place 8c+j. -/
structure OutputChip where
  shift   : List Bool
  storage : List Bool
  deriving DecidableEq, Repr

/-- What is on an engine's pins (log entry 10): a data line under no law, with the draws that are to come on it (R14), or a
reference chip (R215). -/
inductive Attached where
  | line (draws : List Bool)
  | inputChip (c : InputChip)
  | outputChip (c : OutputChip)
  deriving DecidableEq, Repr

/-- One engine: its parameters, the state of R22, the trace of its most recent command (R36) and what is on its pins.
An IEC uses `loadQ` and `clkQ` (R29); an OEC uses `dataQ`, `clkQ`, `latchQ`, `oeQ` (R31) and `cache` (R30); the fields of the
other kind keep their reset values (log entry 9). -/
@[ext] structure Engine where
  params   : Params
  /-- READY (R26). -/
  ready    : Bool
  /-- STATUS (R24). -/
  status   : Word
  /-- RDATA (R25). -/
  rdata    : Word
  /-- XBUF[0..N) (R28, 20_memory.md R52). -/
  xbuf     : List Byte
  /-- CACHE[0..N) (R30). -/
  cache    : List Byte
  loadQ    : Level
  clkQ     : Level
  dataQ    : Level
  latchQ   : Level
  oeQ      : Level
  /-- The events of the most recent command, oldest first (00_scope.md R12). -/
  trace    : List Event
  /-- The model's own count of free values passed by (log entry 1). -/
  fresh    : Nat
  attached : Attached
  deriving DecidableEq, Repr

/-- What the host or the world around the pins does next (20_memory.md R53, 60_exceptions.md R222). -/
inductive Action where
  /-- A host write of `bits` bits at an absolute address; a narrower write uses the low bits of the value. -/
  | write (bits addr : Nat) (v : Word)
  /-- A host read of `bits` bits at an absolute address. -/
  | read (bits addr : Nat)
  /-- The reset of engine `k` (R240; log entry 15). -/
  | reset (k : Nat)
  /-- The world changes what is on the pins of engine `k`: other inputs, a disturbed chip, other draws (log entry 14). -/
  | environment (k : Nat) (a : Attached)
  deriving DecidableEq, Repr

/-- The system: its engines (R224), the one the current command runs on, the actions to come, oldest first (R62, R63), and the
value the last action returned to the host, if it was a read. -/
structure State where
  engines : List Engine
  target  : Nat
  pending : List Action
  busRead : Option Word
  deriving DecidableEq, Repr

/-- There is no fault: "A model therefore has no fault outcome for any command word" (R206; 93_implementation_defined.md: "No
item has treatment fault"). The type has no constructor, so no step can answer one. -/
inductive Fault where
  deriving DecidableEq, Repr

/-- Why the model has no meaning for an action (R206: "The model's refusals are host actions outside the contract"). -/
inductive Refusal where
  /-- An instruction with no meaning yet, by its mnemonic. Raised by no arm of exec. Safe: the model stops. -/
  | notModelled (mnemonic : String)
  /-- U13: a host access of a wrong width, misaligned, or outside every window (20_memory.md R53), or an action on an engine
  that is not there. Raised by `State.perform`. Safe: the model stops. -/
  | badAccess
  /-- U12, U18: N out of range (00_scope.md R7), overlapping lines (R225), overlapping windows (log entry 13), or a chip that does
  not fit its engine (log entry 17). Raised by `step` and `State.perform`. Safe: the model stops. -/
  | badConfiguration
  /-- exec was asked to run a command on an engine that is not there; `step` never asks it. Safe: the model stops. -/
  | noEngine
  deriving DecidableEq, Repr

/-- An engine right after reset (R39, R240): no event, the parameters and what is on the pins as they were, every byte of
XBUF a free value. -/
def Engine.atReset (p : Params) (fresh : Nat) (a : Attached) : Engine where
  params := p
  ready := false
  status := 0x00000000#32
  rdata := 0x00000000#32
  xbuf := (List.range p.n).map (Config.freeXbuf p.base fresh)
  cache := match p.kind with
    | .iec => []
    | .oec => List.replicate p.n 0x00#8
  loadQ := .undriven
  clkQ := .undriven
  dataQ := .undriven
  latchQ := .undriven
  oeQ := .undriven
  trace := []
  fresh := fresh + 1
  attached := a

/-- The system right after reset: every engine at its reset values, no action to come (R241). Which engines there are is
the model's choice (DESIGN CHOICE, log entry 3). -/
def State.reset : State where
  engines := [Engine.atReset Config.iecParams 0 (.line []), Engine.atReset Config.oecParams 0 (.line [])]
  target := 0
  pending := []
  busRead := none

end Sys2Proof.Machine
end

