-- ==== Sys2Proof/Machine/Operands.lean ====
section
/-! DEFINITION. How commands read their operands: bit indices (20_memory.md R54, R56), the orders of bits on the data lines
(R57, R58), words as bytes (R59), bytes as bits, and the capability check of the init commands (00_scope.md R9). All of it is
exact arithmetic on naturals (40_input_chain.md R116, 41_output_chain.md R158). -/

namespace Sys2Proof.Machine

/-- The chip a bit index names (R56). -/
def chipOf (i : Nat) : Nat := i / 8

/-- The bit of that chip it names, by significance (R56). -/
def bitOf (i : Nat) : Nat := i % 8

/-- The sample position of a bit index after a load (R57). -/
def pos (i : Nat) : Nat := 8 * (i / 8) + 7 - i % 8

/-- The place of a bit index among the bits of a full-chain write (R58). -/
def outPos (n i : Nat) : Nat := 8 * (n - 1 - i / 8) + 7 - i % 8

/-- `IDX >= N * 8` (40_input_chain.md R115, 41_output_chain.md R156): the index is outside the space (R54). -/
def outOfRange (n idx : Nat) : Bool := decide (n * 8 ≤ idx)

/-- Bit `j` of a byte. -/
def byteBit (b : Byte) (j : Nat) : Bool := b.getLsbD j

/-- `b[j] <- v`: exactly one bit of the byte changes (R158). -/
def setByteBit (b : Byte) (j : Nat) (v : Bool) : Byte :=
  if v then b ||| (1#8 <<< j) else b &&& ~~~(1#8 <<< j)

/-- The bits of a byte, most significant first (00_scope.md R11). -/
def msbFirst (b : Byte) : List Bool :=
  [byteBit b 7, byteBit b 6, byteBit b 5, byteBit b 4, byteBit b 3, byteBit b 2, byteBit b 1, byteBit b 0]

/-- The low and the high byte of DATA16, for chips 0 and 1 (R59). -/
def lowByte (d : Half) : Byte := d.extractLsb' 0 8

/-- See `lowByte`. -/
def highByte (d : Half) : Byte := d.extractLsb' 8 8

/-- RDATA for one byte: zero-extended (R112). -/
def byteWord (b : Byte) : Word := 0#24 ++ b

/-- RDATA for two chips: chip 0 in the low byte, chip 1 in the high byte (R59, R113). -/
def pairWord (chip0 chip1 : Byte) : Word := 0#16 ++ (chip1 ++ chip0)

/-- RDATA for one bit (R115). -/
def bitWord (d : Bool) : Word := 0#31 ++ BitVec.ofBool d

/-- The capabilities an init command asks for, by kind (00_scope.md R9; R110, R150). -/
def capabilitiesPresent : Kind → Bound → Bool
  | .iec, b => b.gpioInit && b.setLoad && b.setClock && b.readData && b.delay
  | .oec, b => b.gpioInit && b.setLatch && b.setClock && b.setData && b.setOutputEnable && b.delay

/-- `CACHE[c]` or `XBUF[c]`: byte `c` of an array of N bytes (R52, R54). A place outside the array is read by no command; it
reads as 0 (log entry 8). -/
def arrayByte (a : List Byte) (c : Nat) : Byte := a.getD c 0#8

/-- `MemWrite(XBUF + k, 1, v)` and `CACHE[c] <- v` (R52, R54). -/
def setArrayByte (a : List Byte) (c : Nat) (v : Byte) : List Byte := a.set c v

/-- Bit index `i` of CACHE (R54, R56). -/
def arrayBit (a : List Byte) (i : Nat) : Bool := byteBit (arrayByte a (chipOf i)) (bitOf i)

/-- `CACHE[c][j] <- v` for bit index `i` (R156). -/
def setArrayBit (a : List Byte) (i : Nat) (v : Bool) : List Byte :=
  setArrayByte a (chipOf i) (setByteBit (arrayByte a (chipOf i)) (bitOf i) v)

/-- The array of an engine has exactly N bytes (10_state.md R37): the one form XBUF and CACHE have. -/
abbrev Memory.wf (n : Nat) (a : List Byte) : Prop := a.length = n

/-- The bits a full-chain write puts on the data line, in order: chip N-1 first, each byte MSB-first (R58, R143). -/
def outBits (n : Nat) (cache : List Byte) : List Bool :=
  (List.range n).reverse.flatMap fun c => msbFirst (arrayByte cache c)

end Sys2Proof.Machine
end

