-- ==== Sys2Proof/Machine/Chips.lean ====
section
/-! DEFINITION. How the reference chips react to an engine's pin events (60_exceptions.md R216 to R219). They are the spec's
simulated environment, outside the block (R215); they act only where one is attached (log entry 10). -/

namespace Sys2Proof.Machine

/-- `T[k] <- P[pos(k)]` for every k (R216), for an engine of width `n`. -/
def InputChip.capture (n : Nat) (c : InputChip) : List Bool :=
  (List.range (8 * n)).map fun k => c.inputs.getD (pos k) false

/-- The reference input expander's reaction to an event (R216): `si` is the draw SI, `loadQ` the level of the load line. -/
def InputChip.react (n : Nat) (si : Bool) (loadQ : Level) (ev : Event) (c : InputChip) : InputChip :=
  match ev with
  | .setLoad true => { c with shift := c.capture n }
  | .setClock b =>
    { c with
      shift := if b && decide (c.clk = .low) && decide (loadQ = .low) then c.shift.tail ++ [si] else c.shift
      clk := Level.ofBool b }
  | _ => c

/-- The bit on a line that was driven, or a free bit where it was not (R31 U; log entry 11). -/
def Level.bit (free : Bool) : Level → Bool
  | .low => false
  | .high => true
  | .undriven => free

/-- The reference output expander's reaction to an event (R217, R218): `clkQ`, `dataQ` and `latchQ` are the levels before it. -/
def OutputChip.react (free : Bool) (clkQ dataQ latchQ : Level) (ev : Event) (c : OutputChip) : OutputChip :=
  match ev with
  | .setClock true =>
    if clkQ = .low then { c with shift := dataQ.bit free :: c.shift.dropLast } else c
  | .setLatch true =>
    if latchQ = .low then { c with storage := c.shift } else c
  | _ => c

/-- What an event does to what is on the engine's pins: a sample uses up one draw of a free line (00_scope.md R14), a chip
reacts as the reference model says. -/
def Engine.attachedAfter (ev : Event) (e : Engine) : Attached :=
  match e.attached with
  | .line draws =>
    match ev with
    | .readData _ => .line draws.tail
    | _ => .line draws
  | .inputChip c => .inputChip (c.react e.params.n (Config.freeSerialIn e.params.base e.fresh) e.loadQ ev)
  | .outputChip c => .outputChip (c.react (Config.freeLevel e.params.base e.fresh) e.clkQ e.dataQ e.latchQ ev)

/-- The bit on the data line when an IEC samples it: the next draw (R14), or T[0] of the reference chip (R216). -/
def Engine.dataLine (e : Engine) : Bool :=
  match e.attached with
  | .line draws => draws.headD (Config.freeSample e.params.base e.fresh)
  | .inputChip c => c.shift.headD (Config.freeSample e.params.base e.fresh)
  | .outputChip _ => Config.freeSample e.params.base e.fresh

/-- What an output of the output chip does (R219). -/
inductive PinOut where
  | drives (b : Bool)
  | highZ
  | unspecified
  deriving DecidableEq, Repr

/-- Output `p` = 8c+j of the output chip on an engine (R219); unspecified where no output chip is attached. -/
def Engine.outputPin (e : Engine) (p : Nat) : PinOut :=
  match e.attached with
  | .line _ => .unspecified
  | .inputChip _ => .unspecified
  | .outputChip c =>
    match e.oeQ with
    | .high => match c.storage[p]? with
      | some b => .drives b
      | none => .unspecified
    | .low => .highZ
    | .undriven => .unspecified

/-- The chip on an engine fits it: an input chip of 8N inputs on an IEC, an output chip of 8N outputs on an OEC (R216, R217;
log entry 17). A data line under no law fits any engine. -/
def Attached.fits (p : Params) : Attached → Bool
  | .line _ => true
  | .inputChip c =>
    decide (p.kind = .iec) && decide (c.inputs.length = 8 * p.n) && decide (c.shift.length = 8 * p.n)
  | .outputChip c =>
    decide (p.kind = .oec) && decide (c.shift.length = 8 * p.n) && decide (c.storage.length = 8 * p.n)

end Sys2Proof.Machine
end

