-- ==== Sys2Proof/Machine/Flags.lean ====
section
/-! DEFINITION. The result codes (60_exceptions.md R200), the block's only flag-like state (10_state.md R34), and completing
a command with one (00_scope.md R12 `finish`). The block takes no exception (R206): this is what stands in its place. -/

namespace Sys2Proof.Machine

/-- The result codes of R200. -/
inductive Code where
  /-- R200: success, Applied. -/
  | ok
  /-- R204. -/
  | unchanged
  /-- R202. -/
  | lengthMismatch
  /-- R203. -/
  | rangeError
  /-- R201. -/
  | configError
  /-- R205, 30_encoding.md R75. -/
  | badCommand
  /-- R205. -/
  | notReady
  deriving DecidableEq, Repr

/-- The value of a code (R200). -/
def Code.value : Code → Byte
  | .ok => 0x00#8
  | .unchanged => 0x01#8
  | .lengthMismatch => 0x02#8
  | .rangeError => 0x03#8
  | .configError => 0x04#8
  | .badCommand => 0x05#8
  | .notReady => 0x06#8

/-- STATUS for a code: CODE in [7:0], 0 above (10_state.md R24). -/
def Code.statusWord (c : Code) : Word := 0#24 ++ c.value

/-- `finish(code)`: the last action of every command (00_scope.md R12, 10_state.md R24). -/
def Engine.finish (c : Code) (e : Engine) : Engine := { e with status := c.statusWord }

end Sys2Proof.Machine
end

