-- ==== Sys2Proof/Machine/Ops.lean ====
section
/-! DEFINITION. The shared operations of the commands: emitting a pin event (00_scope.md R12), the sequencing procedures of
40_input_chain.md R101 to R104 and 41_output_chain.md R141 to R143, XBUF as a memory (20_memory.md R52), and running a command on
the engine it was written to, with the checks every command goes through (R100, R140, 60_exceptions.md R208). -/

namespace Sys2Proof.Machine

/-- The line level an event leaves (10_state.md R29, R31). -/
def Engine.drive (ev : Event) (e : Engine) : Engine :=
  match ev with
  | .gpioInit => e
  | .setLoad b => { e with loadQ := Level.ofBool b }
  | .setClock b => { e with clkQ := Level.ofBool b }
  | .readData _ => e
  | .setLatch b => { e with latchQ := Level.ofBool b }
  | .setData b => { e with dataQ := Level.ofBool b }
  | .setOutputEnable b => { e with oeQ := Level.ofBool b }
  | .delay _ => e

/-- `emit(e)` (00_scope.md R12): the event joins the trace, the line takes its level, and what is on the pins reacts. -/
def Engine.emit (ev : Event) (e : Engine) : Engine :=
  { e.drive ev with
    trace := e.trace ++ [ev]
    fresh := e.fresh + 1
    attached := e.attachedAfter ev }

/-- `wait()`: one delay unit (R12). -/
def Engine.wait (e : Engine) : Engine := e.emit (.delay e.params.delayUnit)

/-- `sample()` (R12, R14): the bit on the data line, and the engine after the event that read it. -/
def Engine.sample (e : Engine) : Bool × Engine := (e.dataLine, e.emit (.readData e.dataLine))

/-- The load pulse (R101). -/
def Engine.loadPulse (e : Engine) : Engine :=
  (((e.emit (.setLoad true)).wait).emit (.setLoad false)).wait

/-- The clock pulse (R102), on either kind's clock line (R141). -/
def Engine.clockPulse (e : Engine) : Engine :=
  (((e.emit (.setClock false)).wait).emit (.setClock true)).wait

/-- The sample step (R103): the data line is sampled before the pulse. -/
def Engine.sampleStep (e : Engine) : Bool × Engine := (e.sample.1, e.sample.2.clockPulse)

/-- `repeat p times: clockPulse()` (R115). -/
def Engine.clockPulses : Nat → Engine → Engine
  | 0, e => e
  | p + 1, e => Engine.clockPulses p e.clockPulse

/-- The inner loop of R104: with `m` bits still to come, the next sample is bit `m - 1` of the byte. -/
def Engine.readBits : Nat → Byte → Engine → Byte × Engine
  | 0, b, e => (b, e)
  | m + 1, b, e => Engine.readBits m (setByteBit b m e.sampleStep.1) e.sampleStep.2

/-- `readChain(nbytes)` (R104): bytes chip-major, each MSB-first. -/
def Engine.readChain : Nat → Engine → List Byte × Engine
  | 0, e => ([], e)
  | k + 1, e =>
    let b := Engine.readBits 8 0x00#8 e
    let rest := Engine.readChain k b.2
    (b.1 :: rest.1, rest.2)

/-- The shift step (R141). -/
def Engine.shiftStep (b : Bool) (e : Engine) : Engine := (e.emit (.setData b)).clockPulse

/-- Shift steps for a list of bits, the first bit first. -/
def Engine.shiftOut : List Bool → Engine → Engine
  | [], e => e
  | b :: bs, e => Engine.shiftOut bs (e.shiftStep b)

/-- The latch pulse (R142). -/
def Engine.latchPulse (e : Engine) : Engine :=
  (((e.emit (.setLatch true)).wait).emit (.setLatch false)).wait

/-- The full-chain write (R143). -/
def Engine.fullWrite (e : Engine) : Engine :=
  (Engine.shiftOut (outBits e.params.n e.cache) e).latchPulse

/-- `MemRead(XBUF + k, 1)` (20_memory.md R52). -/
def Engine.memRead (k : Nat) (e : Engine) : Byte := arrayByte e.xbuf k

/-- `MemWrite(XBUF + k, 1, v)` (R52). -/
def Engine.memWrite (k : Nat) (v : Byte) (e : Engine) : Engine := { e with xbuf := setArrayByte e.xbuf k v }

/-- `MemWrite` of a list of bytes from byte `k` of XBUF on (R114). -/
def Engine.memWriteAll : Nat → List Byte → Engine → Engine
  | _, [], e => e
  | k, b :: bs, e => Engine.memWriteAll (k + 1) bs (e.memWrite k b)

/-- A command starts with an empty trace (00_scope.md R13; log entry 7). -/
def Engine.begin (e : Engine) : Engine := { e with trace := [] }

/-- The engine the current command runs on. -/
def State.current (s : State) : Option Engine := s.engines[s.target]?

/-- The system with that engine replaced: no other engine changes (60_exceptions.md R224). -/
def State.put (e : Engine) (s : State) : State := { s with engines := s.engines.set s.target e }

/-- The check of R100 and R140 after decoding: a command other than init needs READY = 1. -/
def Engine.whenReady (body : Engine → Engine) (e : Engine) : Engine :=
  if e.ready then body e else e.finish .notReady

/-- A command that is no command of the engine (30_encoding.md R75): STATUS only, an empty trace (60_exceptions.md R207). -/
def Engine.illegal (e : Engine) : Engine := e.begin.finish .badCommand

/-- Run a command of one engine group on the current engine. A command of the other group is illegal there (30_encoding.md
R74, R75). -/
def State.command (k : Kind) (body : Engine → Engine) (s : State) : Host.Outcome State Fault Refusal :=
  match s.current with
  | none => .refused .noEngine
  | some e => .next (s.put (if e.params.kind = k then body e.begin else e.illegal))

end Sys2Proof.Machine
end

