-- ==== Sys2Proof/Machine/InputChain.lean ====
section
/-! DEFINITION. The commands of the input expander controller (40_input_chain.md R110 to R115): one definition for each body,
and one meaning for each command. -/

namespace Sys2Proof.Machine

/-- IN.INIT (R110). -/
def Engine.inInit (e : Engine) : Engine :=
  if capabilitiesPresent .iec e.params.bound then
    let e := ((e.emit .gpioInit).emit (.setClock false)).emit (.setLoad false)
    Engine.finish .ok { e with ready := true }
  else
    Engine.finish .configError { e with ready := false }

/-- IN.LOAD (R111). -/
def Engine.inLoad (e : Engine) : Engine := e.loadPulse.finish .ok

/-- IN.READBYTE (R112). -/
def Engine.inReadbyte (e : Engine) : Engine :=
  if e.params.n = 1 then
    let r := Engine.readChain 1 e.loadPulse
    Engine.finish .ok { r.2 with rdata := byteWord (arrayByte r.1 0) }
  else
    Engine.finish .lengthMismatch { e with rdata := 0x00000000#32 }

/-- IN.READWORD (R113). -/
def Engine.inReadword (e : Engine) : Engine :=
  if e.params.n = 2 then
    let r := Engine.readChain 2 e.loadPulse
    Engine.finish .ok { r.2 with rdata := pairWord (arrayByte r.1 0) (arrayByte r.1 1) }
  else
    Engine.finish .lengthMismatch { e with rdata := 0x00000000#32 }

/-- IN.READALL (R114). -/
def Engine.inReadall (len : Nat) (e : Engine) : Engine :=
  if len = e.params.n then
    let r := Engine.readChain e.params.n e.loadPulse
    (Engine.memWriteAll 0 r.1 r.2).finish .ok
  else
    e.finish .lengthMismatch

/-- IN.READBIT (R115). -/
def Engine.inReadbit (idx : Nat) (e : Engine) : Engine :=
  if outOfRange e.params.n idx then
    Engine.finish .rangeError { e with rdata := 0x00000000#32 }
  else
    let r := (Engine.clockPulses (pos idx) e.loadPulse).sample
    Engine.finish .ok { r.2 with rdata := bitWord r.1 }

/-- IN.INIT: accepted whatever READY is (R100, R110). -/
def execInInit (s : State) : Host.Outcome State Fault Refusal :=
  s.command .iec Engine.inInit

/-- IN.LOAD (R100, R111). -/
def execInLoad (s : State) : Host.Outcome State Fault Refusal :=
  s.command .iec (Engine.whenReady Engine.inLoad)

/-- IN.READBYTE (R100, R112). -/
def execInReadbyte (s : State) : Host.Outcome State Fault Refusal :=
  s.command .iec (Engine.whenReady Engine.inReadbyte)

/-- IN.READWORD (R100, R113). -/
def execInReadword (s : State) : Host.Outcome State Fault Refusal :=
  s.command .iec (Engine.whenReady Engine.inReadword)

/-- IN.READALL (R100, R114). -/
def execInReadall (len : Nat) (s : State) : Host.Outcome State Fault Refusal :=
  s.command .iec (Engine.whenReady (Engine.inReadall len))

/-- IN.READBIT (R100, R115). -/
def execInReadbit (idx : Nat) (s : State) : Host.Outcome State Fault Refusal :=
  s.command .iec (Engine.whenReady (Engine.inReadbit idx))

end Sys2Proof.Machine
end

