-- ==== Sys2Proof/Machine/OutputChain.lean ====
section
/-! DEFINITION. The commands of the output expander controller (41_output_chain.md R150 to R157): one definition for each
body, and one meaning for each command. -/

namespace Sys2Proof.Machine

/-- OUT.INIT (R150). -/
def Engine.outInit (e : Engine) : Engine :=
  if capabilitiesPresent .oec e.params.bound then
    let e := ((((e.emit .gpioInit).emit (.setData false)).emit (.setClock false)).emit (.setLatch false)).emit
      (.setOutputEnable false)
    let e := Engine.fullWrite { e with cache := List.replicate e.params.n 0x00#8 }
    Engine.finish .ok { e with ready := true }
  else
    Engine.finish .configError { e with ready := false }

/-- OUT.ENABLE (R151). -/
def Engine.outEnable (e : Engine) : Engine := (e.emit (.setOutputEnable true)).finish .ok

/-- OUT.DISABLE (R152). -/
def Engine.outDisable (e : Engine) : Engine := (e.emit (.setOutputEnable false)).finish .ok

/-- OUT.WRITEBYTE (R153). -/
def Engine.outWritebyte (data : Byte) (e : Engine) : Engine :=
  if e.params.n = 1 then
    (Engine.fullWrite { e with cache := setArrayByte e.cache 0 data }).finish .ok
  else
    e.finish .lengthMismatch

/-- OUT.WRITEWORD (R154). -/
def Engine.outWriteword (data : Half) (e : Engine) : Engine :=
  if e.params.n = 2 then
    (Engine.fullWrite
      { e with cache := setArrayByte (setArrayByte e.cache 0 (lowByte data)) 1 (highByte data) }).finish .ok
  else
    e.finish .lengthMismatch

/-- OUT.WRITEALL (R155). -/
def Engine.outWriteall (len : Nat) (e : Engine) : Engine :=
  if len = e.params.n then
    (Engine.fullWrite { e with cache := (List.range e.params.n).map fun c => e.memRead c }).finish .ok
  else
    e.finish .lengthMismatch

/-- OUT.WRITEBIT (R156), with change suppression. -/
def Engine.outWritebit (idx : Nat) (v : Bool) (e : Engine) : Engine :=
  if outOfRange e.params.n idx then
    e.finish .rangeError
  else if arrayBit e.cache idx = v then
    e.finish .unchanged
  else
    (Engine.fullWrite { e with cache := setArrayBit e.cache idx v }).finish .ok

/-- OUT.DEINIT (R157): READY and CACHE stay. -/
def Engine.outDeinit (e : Engine) : Engine := (e.emit (.setOutputEnable false)).finish .ok

/-- OUT.INIT: accepted whatever READY is (R140, R150). -/
def execOutInit (s : State) : Host.Outcome State Fault Refusal :=
  s.command .oec Engine.outInit

/-- OUT.ENABLE (R140, R151). -/
def execOutEnable (s : State) : Host.Outcome State Fault Refusal :=
  s.command .oec (Engine.whenReady Engine.outEnable)

/-- OUT.DISABLE (R140, R152). -/
def execOutDisable (s : State) : Host.Outcome State Fault Refusal :=
  s.command .oec (Engine.whenReady Engine.outDisable)

/-- OUT.WRITEBYTE (R140, R153). -/
def execOutWritebyte (data : Byte) (s : State) : Host.Outcome State Fault Refusal :=
  s.command .oec (Engine.whenReady (Engine.outWritebyte data))

/-- OUT.WRITEWORD (R140, R154). -/
def execOutWriteword (data : Half) (s : State) : Host.Outcome State Fault Refusal :=
  s.command .oec (Engine.whenReady (Engine.outWriteword data))

/-- OUT.WRITEALL (R140, R155). -/
def execOutWriteall (len : Nat) (s : State) : Host.Outcome State Fault Refusal :=
  s.command .oec (Engine.whenReady (Engine.outWriteall len))

/-- OUT.WRITEBIT (R140, R156). -/
def execOutWritebit (idx : Nat) (v : Bool) (s : State) : Host.Outcome State Fault Refusal :=
  s.command .oec (Engine.whenReady (Engine.outWritebit idx v))

/-- OUT.DEINIT (R140, R157). -/
def execOutDeinit (s : State) : Host.Outcome State Fault Refusal :=
  s.command .oec (Engine.whenReady Engine.outDeinit)

end Sys2Proof.Machine
end

