-- ==== Sys2Proof/Machine/Dispatch.lean ====
section
/-! DEFINITION. One arm for each command (30_encoding.md R73): the meaning of a decoded command on the current engine. -/

namespace Sys2Proof.Machine

/-- The meaning of a command (40_input_chain.md R110 to R115, 41_output_chain.md R150 to R157). -/
def exec (i : Instr) (s : State) : Host.Outcome State Fault Refusal :=
  match i with
  | .inInit => Sys2Proof.Machine.execInInit s
  | .inLoad => Sys2Proof.Machine.execInLoad s
  | .inReadbyte => Sys2Proof.Machine.execInReadbyte s
  | .inReadword => Sys2Proof.Machine.execInReadword s
  | .inReadall len => Sys2Proof.Machine.execInReadall len s
  | .inReadbit idx => Sys2Proof.Machine.execInReadbit idx s
  | .outInit => Sys2Proof.Machine.execOutInit s
  | .outEnable => Sys2Proof.Machine.execOutEnable s
  | .outDisable => Sys2Proof.Machine.execOutDisable s
  | .outWritebyte data => Sys2Proof.Machine.execOutWritebyte data s
  | .outWriteword data => Sys2Proof.Machine.execOutWriteword data s
  | .outWriteall len => Sys2Proof.Machine.execOutWriteall len s
  | .outWritebit idx v => Sys2Proof.Machine.execOutWritebit idx v s
  | .outDeinit => Sys2Proof.Machine.execOutDeinit s

end Sys2Proof.Machine
end

