-- ==== Sys2Proof/Machine/Bus.lean ====
section
/-! DEFINITION. The host's side: the register window (20_memory.md R50 to R53, 10_state.md R35), which engine an address
belongs to, the configurations the model admits (60_exceptions.md R224, R225), and what one host action does. -/

namespace Sys2Proof.Machine

/-- The window decodes offsets 0x0000 to 0x20FF (R51). -/
def windowSize : Nat := 0x2100

/-- An address in the window of an engine. -/
def Engine.covers (addr : Nat) (e : Engine) : Bool :=
  decide (e.params.base ≤ addr) && decide (addr < e.params.base + windowSize)

/-- The engine whose window an address is in; the base address is its only identifier (R224). -/
def State.find (addr : Nat) (s : State) : Option Nat := s.engines.findIdx? (Engine.covers addr)

/-- KIND in INFO: 0 for an IEC, 1 for an OEC (10_state.md R27). -/
def kindBit : Kind → Bool
  | .iec => false
  | .oec => true

/-- INFO (R27): N in [15:0], KIND in [16], READY in [17], 0 above. -/
def Engine.info (e : Engine) : Word :=
  0#14 ++ (BitVec.ofBool e.ready ++ (BitVec.ofBool (kindBit e.params.kind) ++ BitVec.ofNat 16 e.params.n))

/-- A 32-bit access to a register or to the reserved offsets below 0x0100, aligned (R53). -/
def isRegisterAccess (bits off : Nat) : Bool :=
  decide (bits = 32) && decide (off < 0x0100) && decide (off % 4 = 0)

/-- An 8-bit access to XBUF or to the reserved offsets above it (R53). -/
def isByteAccess (bits off : Nat) : Bool :=
  decide (bits = 8) && decide (0x0100 ≤ off) && decide (off < windowSize)

/-- What a host read gives (R51, R35); none where the access is refused (R53). -/
def Engine.hostRead (bits off : Nat) (e : Engine) : Option Word :=
  if isRegisterAccess bits off then
    some (if off = 0x0000 then 0#32
      else if off = 0x0004 then e.status
      else if off = 0x0008 then e.rdata
      else if off = 0x000C then e.info
      else 0#32)
  else if isByteAccess bits off then
    some (if off - 0x0100 < e.params.n then byteWord (e.memRead (off - 0x0100)) else 0#32)
  else
    none

/-- What a host write that issues no command does (R51, R35): XBUF bytes are written, everything else ignores it; none where
the access is refused (R53). -/
def Engine.hostWrite (bits off : Nat) (v : Word) (e : Engine) : Option Engine :=
  if isRegisterAccess bits off then
    some e
  else if isByteAccess bits off then
    some (if off - 0x0100 < e.params.n then e.memWrite (off - 0x0100) (v.extractLsb' 0 8) else e)
  else
    none

/-- The storage stage wired to the input chip of an engine, where the loopback wiring of R220 names an OEC of the same N with
an output chip; else the inputs the chip has (log entry 12). -/
def State.wiredInputs (s : State) (n : Nat) (c : InputChip) : List Bool :=
  match c.loop with
  | none => c.inputs
  | some j =>
    match s.engines[j]? with
    | none => c.inputs
    | some o =>
      match o.attached with
      | .line _ => c.inputs
      | .inputChip _ => c.inputs
      | .outputChip q => if o.params.n = n then q.storage else c.inputs

/-- An engine with its input chip's parallel inputs at the levels the loopback wiring gives (R220: `P[p] = Q[p]`). -/
def State.wire (s : State) (e : Engine) : Engine :=
  match e.attached with
  | .line _ => e
  | .inputChip c => { e with attached := .inputChip { c with inputs := s.wiredInputs e.params.n c } }
  | .outputChip _ => e

/-- Turn to engine `k`, whose inputs are then as they are wired. -/
def State.select (k : Nat) (s : State) : State :=
  match s.engines[k]? with
  | none => { s with target := k }
  | some e => { s with target := k, engines := s.engines.set k (s.wire e) }

/-- The current engine completes an illegal word with BAD_COMMAND (30_encoding.md R75). -/
def State.illegal (s : State) : Host.Outcome State Fault Refusal :=
  match s.current with
  | none => .refused .noEngine
  | some e => .next (s.put e.illegal)

/-- A host write of `w` to the CMD of engine `k`, of kind `kind`: the command that `w` encodes runs to completion (10_state.md R23,
40_input_chain.md R100, 41_output_chain.md R140). -/
def State.issue (k : Nat) (kind : Kind) (w : Word) (s : State) : Host.Outcome State Fault Refusal :=
  match decode kind w with
  | .ok i => exec i (s.select k)
  | .error _ => (s.select k).illegal

/-- One action of the host or of the world around the pins. -/
def State.perform (a : Action) (s : State) : Host.Outcome State Fault Refusal :=
  match a with
  | .write bits addr v =>
    match s.find addr with
    | none => .refused .badAccess
    | some k =>
      match s.engines[k]? with
      | none => .refused .badAccess
      | some e =>
        if bits = 32 ∧ addr = e.params.base then
          s.issue k e.params.kind v
        else
          match e.hostWrite bits (addr - e.params.base) v with
          | none => .refused .badAccess
          | some e' => .next { s with engines := s.engines.set k e' }
  | .read bits addr =>
    match s.find addr with
    | none => .refused .badAccess
    | some k =>
      match s.engines[k]? with
      | none => .refused .badAccess
      | some e =>
        match e.hostRead bits (addr - e.params.base) with
        | none => .refused .badAccess
        | some v => .next { s with busRead := some v }
  | .reset k =>
    match s.engines[k]? with
    | none => .refused .badAccess
    | some e => .next { s with engines := s.engines.set k (Engine.atReset e.params e.fresh e.attached) }
  | .environment k a =>
    match s.engines[k]? with
    | none => .refused .badAccess
    | some e =>
      if a.fits e.params then .next { s with engines := s.engines.set k { e with attached := a } }
      else .refused .badConfiguration

/-- N in range (00_scope.md R7) and a chip that fits. -/
def Engine.admitted (e : Engine) : Bool := e.params.wellFormed && e.attached.fits e.params

/-- Two engines share no line (R225) and no address (R224: the base address is the only identifier). -/
def Params.compatible (p q : Params) : Bool :=
  p.lines.all (fun l => !q.lines.contains l) &&
  (decide (p.base + windowSize ≤ q.base) || decide (q.base + windowSize ≤ p.base))

/-- Every two engines of a list are compatible. -/
def allCompatible : List Params → Bool
  | [] => true
  | p :: ps => ps.all (Params.compatible p) && allCompatible ps

/-- The configurations the model admits (U12, U18). -/
def State.admitted (s : State) : Bool :=
  s.engines.all Engine.admitted && allCompatible (s.engines.map Engine.params)

/-- The engine a command word is meant for: the first one that decodes it. -/
def State.engineFor (w : Word) (s : State) : Nat :=
  (s.engines.findIdx? fun e => (decode e.params.kind w).toOption.isSome).getD 0

/-- The address of the CMD register of an engine (R51). -/
def State.cmdAddress (k : Nat) (s : State) : Nat :=
  match s.engines[k]? with
  | none => 0
  | some e => e.params.base

/-- The assembler line of a command on an engine (30_encoding.md R79): `wr CMD, w`. -/
def assemble (e : Engine) (i : Instr) : Action := .write 32 e.params.base (encode i)

end Sys2Proof.Machine
end

