-- ==== Sys2Proof/Machine/Step.lean ====
section
/-! DEFINITION. One step of the system: the host's next action (20_memory.md R62). -/

namespace Sys2Proof.Machine

/-- The next action is performed to completion; with none to come the engines are idle and keep all their state (60_exceptions.md
R214, 70_reset_and_hazards.md R241; log entry 4). A configuration outside the spec is refused (R225, 00_scope.md R7). -/
def step (s : State) : Host.Outcome State Fault Refusal :=
  if s.admitted then
    match s.pending with
    | [] => .next s
    | a :: rest => State.perform a { s with pending := rest, busRead := none }
  else
    .refused .badConfiguration

/-- The host's next action is a write of the word to the CMD register of an engine that decodes it (log entry 5). -/
def State.withFetchWord (s : State) (nbits w : Nat) : State :=
  let word : Word := BitVec.ofNat 32 (w % 2 ^ nbits)
  { s with pending := .write 32 (s.cmdAddress (s.engineFor word)) word :: s.pending }

end Sys2Proof.Machine
end

