-- ==== Sys2Proof/Safety.lean ====
section
/-! DEFINITION. What holds of every reachable state (10_state.md R37, R24, R25, R30; 70_reset_and_hazards.md R250), in the
terms the statements use. -/

namespace Sys2Proof.Machine

/-- A line the engine has driven (R37: 0 or 1, not U). -/
def Level.driven : Level → Bool
  | .low => true
  | .high => true
  | .undriven => false

/-- The line levels R37 speaks of: all driven once READY = 1; the load line (R101) and the latch line (R142) are then back at 0
(R250). -/
def Engine.linesDriven (e : Engine) : Prop :=
  match e.params.kind with
  | .iec => e.loadQ = .low ∧ e.clkQ.driven = true
  | .oec => e.dataQ.driven = true ∧ e.clkQ.driven = true ∧ e.latchQ = .low ∧ e.oeQ.driven = true

/-- The fields of the other kind are never used (log entry 9), and RDATA of an OEC keeps its reset value (R25). -/
def Engine.otherKindUnused (e : Engine) : Prop :=
  match e.params.kind with
  | .iec => e.cache = [] ∧ e.dataQ = .undriven ∧ e.latchQ = .undriven ∧ e.oeQ = .undriven
  | .oec => e.loadQ = .undriven ∧ e.rdata = 0#32 ∧ Memory.wf e.params.n e.cache

/-- The invariants of R37 and the code values of R200, for one engine. -/
structure Engine.Inv (e : Engine) : Prop where
  /-- `len(XBUF) = N`. -/
  xbuf_length : Memory.wf e.params.n e.xbuf
  /-- An OEC: `len(CACHE) = N`; an IEC has no cache. -/
  other_kind : e.otherKindUnused
  /-- STATUS holds one of the codes of R200, and 0 above. -/
  status_code : ∃ c : Code, e.status = c.statusWord
  /-- `RDATA[31:16] = 0`. -/
  rdata_high : e.rdata.extractLsb' 16 16 = 0#16
  /-- READY = 1: every line is driven. -/
  lines : e.ready = true → e.linesDriven
  /-- The chip on the pins has the engine's width. -/
  attached_fits : e.attached.fits e.params = true

/-- Every engine of the system meets its invariants. -/
def State.Inv (s : State) : Prop := ∀ e ∈ s.engines, e.Inv

/-- Commands run one after the other on the current engine, each to completion (20_memory.md R62). -/
def execAll : List Instr → State → Host.Outcome State Fault Refusal
  | [], s => .next s
  | i :: is, s =>
    match exec i s with
    | .next t => execAll is t
    | .fault r => .fault r
    | .refused r => .refused r

/-- The sample values in a trace, in order (00_scope.md R14). -/
def samplesOf : List Event → List Bool
  | [] => []
  | .readData d :: evs => d :: samplesOf evs
  | .gpioInit :: evs => samplesOf evs
  | .setLoad _ :: evs => samplesOf evs
  | .setClock _ :: evs => samplesOf evs
  | .setLatch _ :: evs => samplesOf evs
  | .setData _ :: evs => samplesOf evs
  | .setOutputEnable _ :: evs => samplesOf evs
  | .delay _ :: evs => samplesOf evs

/-- The levels put on the data line in a trace, in order (R13: `SetData`). -/
def drivenBits : List Event → List Bool
  | [] => []
  | .setData b :: evs => b :: drivenBits evs
  | .gpioInit :: evs => drivenBits evs
  | .setLoad _ :: evs => drivenBits evs
  | .setClock _ :: evs => drivenBits evs
  | .readData _ :: evs => drivenBits evs
  | .setLatch _ :: evs => drivenBits evs
  | .setOutputEnable _ :: evs => drivenBits evs
  | .delay _ :: evs => drivenBits evs

/-- The load pulse's events (R101). -/
def loadEvents (u : Nat) : List Event := [.setLoad true, .delay u, .setLoad false, .delay u]

/-- The clock pulse's events (R102). -/
def clockEvents (u : Nat) : List Event := [.setClock false, .delay u, .setClock true, .delay u]

/-- A sample step's events, with the bit sampled (R103). -/
def sampleEvents (u : Nat) (d : Bool) : List Event := .readData d :: clockEvents u

/-- A shift step's events, with the bit shifted (R141). -/
def shiftEvents (u : Nat) (b : Bool) : List Event := .setData b :: clockEvents u

/-- The latch pulse's events (R142). -/
def latchEvents (u : Nat) : List Event := [.setLatch true, .delay u, .setLatch false, .delay u]

/-- The bits of a full-chain write as R143 writes them: `b_t = CACHE[N-1-t/8][7-(t%8)]` for t = 0 .. 8N-1. -/
def shiftedBits (n : Nat) (cache : List Byte) : List Bool :=
  (List.range (8 * n)).map fun t => byteBit (arrayByte cache (n - 1 - t / 8)) (7 - t % 8)

/-- The trace of a full-chain write (R143). -/
def fullWriteEvents (u n : Nat) (cache : List Byte) : List Event :=
  (shiftedBits n cache).flatMap (shiftEvents u) ++ latchEvents u

/-- The number of delay units of a trace (70_reset_and_hazards.md R251). -/
def delaysIn (evs : List Event) : Nat := evs.countP fun ev => match ev with
  | .delay _ => true
  | _ => false

/-- The events an engine of a kind emits (00_scope.md R13). -/
def Event.allowed (k : Kind) (delayUnit : Nat) : Event → Bool
  | .gpioInit => true
  | .setLoad _ => decide (k = .iec)
  | .setClock _ => true
  | .readData _ => decide (k = .iec)
  | .setLatch _ => decide (k = .oec)
  | .setData _ => decide (k = .oec)
  | .setOutputEnable _ => decide (k = .oec)
  | .delay t => decide (t = delayUnit)

/-- The match and mask of every command of an engine group, as spec/opcode_table.json lists them (30_encoding.md R71, R73). -/
def legalMasks : Kind → List (Word × Word)
  | .iec => [(0x00000001#32, 0xFFFFFFFF#32), (0x00000002#32, 0xFFFFFFFF#32), (0x00000003#32, 0xFFFFFFFF#32),
      (0x00000004#32, 0xFFFFFFFF#32), (0x00000005#32, 0xFF0000FF#32), (0x00000006#32, 0xFF0000FF#32)]
  | .oec => [(0x00000011#32, 0xFFFFFFFF#32), (0x00000012#32, 0xFFFFFFFF#32), (0x00000013#32, 0xFFFFFFFF#32),
      (0x00000014#32, 0xFFFF00FF#32), (0x00000015#32, 0xFF0000FF#32), (0x00000016#32, 0xFF0000FF#32),
      (0x00000017#32, 0xFE0000FF#32), (0x00000018#32, 0xFFFFFFFF#32)]

/-- A word that is no command of the engine (R75): for no command of its group are the opcode right and the reserved bits zero. -/
def illegalOn (k : Kind) (w : Word) : Prop := ∀ r ∈ legalMasks k, w &&& r.2 ≠ r.1

/-- The commands that leave their value in RDATA (10_state.md R25). -/
def writesRdata : Instr → Bool
  | .inReadbyte => true
  | .inReadword => true
  | .inReadbit _ => true
  | .inInit => false
  | .inLoad => false
  | .inReadall _ => false
  | .outInit => false
  | .outEnable => false
  | .outDisable => false
  | .outWritebyte _ => false
  | .outWriteword _ => false
  | .outWriteall _ => false
  | .outWritebit _ _ => false
  | .outDeinit => false

/-- The commands that end, when they end with OK, with a full-chain write (41_output_chain.md R150, R153 to R156). -/
def writesChain : Instr → Bool
  | .inReadbyte => false
  | .inReadword => false
  | .inReadbit _ => false
  | .inInit => false
  | .inLoad => false
  | .inReadall _ => false
  | .outInit => true
  | .outEnable => false
  | .outDisable => false
  | .outWritebyte _ => true
  | .outWriteword _ => true
  | .outWriteall _ => true
  | .outWritebit _ _ => true
  | .outDeinit => false

/-- The commands that only toggle the output-enable line (41_output_chain.md R160). -/
def togglesEnable : Instr → Bool
  | .inReadbyte => false
  | .inReadword => false
  | .inReadbit _ => false
  | .inInit => false
  | .inLoad => false
  | .inReadall _ => false
  | .outInit => false
  | .outEnable => true
  | .outDisable => true
  | .outWritebyte _ => false
  | .outWriteword _ => false
  | .outWriteall _ => false
  | .outWritebit _ _ => false
  | .outDeinit => true

/-- A command's own check once it is decoded and the engine accepts it (60_exceptions.md R208 (3) and (4)), as STATUS. -/
def ownStatus (i : Instr) (e : Engine) : Word :=
  match i with
  | .inInit => if capabilitiesPresent .iec e.params.bound then 0x00#32 else 0x04#32
  | .inLoad => 0x00#32
  | .inReadbyte => if e.params.n = 1 then 0x00#32 else 0x02#32
  | .inReadword => if e.params.n = 2 then 0x00#32 else 0x02#32
  | .inReadall len => if len = e.params.n then 0x00#32 else 0x02#32
  | .inReadbit idx => if e.params.n * 8 ≤ idx then 0x03#32 else 0x00#32
  | .outInit => if capabilitiesPresent .oec e.params.bound then 0x00#32 else 0x04#32
  | .outEnable => 0x00#32
  | .outDisable => 0x00#32
  | .outWritebyte _ => if e.params.n = 1 then 0x00#32 else 0x02#32
  | .outWriteword _ => if e.params.n = 2 then 0x00#32 else 0x02#32
  | .outWriteall len => if len = e.params.n then 0x00#32 else 0x02#32
  | .outWritebit idx v =>
    if e.params.n * 8 ≤ idx then 0x03#32
    else if arrayBit e.cache idx = v then 0x01#32
    else 0x00#32
  | .outDeinit => 0x00#32

/-- STATUS after a command, by the priority of R208: first whether the engine has the command, then READY, then the command's
own check. -/
def statusByPriority (i : Instr) (e : Engine) : Word :=
  if i.kind ≠ e.params.kind then 0x05#32
  else if i.isInit = false ∧ e.ready = false then 0x06#32
  else ownStatus i e

/-- Delay units, events and samples of a command that ends with OK (70_reset_and_hazards.md R251), for cascade width `n`. -/
def okCounts (n : Nat) : Instr → Nat × Nat × Nat
  | .inInit => (0, 3, 0)
  | .inLoad => (2, 4, 0)
  | .inReadbyte => (18, 44, 8)
  | .inReadword => (34, 84, 16)
  | .inReadall _ => (2 + 16 * n, 4 + 40 * n, 8 * n)
  | .inReadbit idx => (2 + 2 * (8 * (idx / 8) + 7 - idx % 8), 5 + 4 * (8 * (idx / 8) + 7 - idx % 8), 1)
  | .outInit => (2 + 16 * n, 9 + 40 * n, 0)
  | .outEnable => (0, 1, 0)
  | .outDisable => (0, 1, 0)
  | .outWritebyte _ => (18, 44, 0)
  | .outWriteword _ => (34, 84, 0)
  | .outWriteall _ => (2 + 16 * n, 4 + 40 * n, 0)
  | .outWritebit _ _ => (2 + 16 * n, 4 + 40 * n, 0)
  | .outDeinit => (0, 1, 0)

/-- The engine a host action is about, if any. -/
def Action.engine (s : State) : Action → Option Nat
  | .write _ addr _ => s.find addr
  | .read _ addr => s.find addr
  | .reset k => some k
  | .environment k _ => some k

end Sys2Proof.Machine
end

