-- ==== Sys2Proof/Certificates/Slice0/Obligations.lean ====
section
/-! DEFINITION. The statements for the provers. In a conclusion `s.put { e with … }` names every field of the engine that a command
changes, so it is the command's frame as well; `fresh` (the model's own count) and what is on the pins (`attached`) are left open
there, and the statements about chips and data lines say what becomes of the latter. -/

open Sys2Proof Sys2Proof.Machine

/-! Encoding (30_encoding.md). -/

/-- R77: "every command with every operand value in range of its field has exactly one word". -/
def Obligations.EncodedCommandDecodesToItself : Prop :=
  ∀ i : Instr, i.wellFormed = true →
    decode i.kind (encode i) = .ok i ∧ ∀ w, decode i.kind w = .ok i → w = encode i

/-- A word that decodes is a command of the engine's group (R74), its operands fit, and it is that command's word. -/
def Obligations.DecodedWordIsItsCommandsWord : Prop :=
  ∀ (k : Kind) (w : Word) (i : Instr), decode k w = .ok i →
    i.kind = k ∧ i.wellFormed = true ∧ encode i = w

/-- R75: a word with a foreign opcode or a reserved bit set, written to CMD, completes with BAD_COMMAND and no other effect on the
block. That the inputs of a looped-back chip, outside the block, are brought to their wired levels by the write (`s.wire e`) is the
model's choice: log entry 12. -/
def Obligations.IllegalWordCompletesWithBadCommand : Prop :=
  ∀ (s : State) (k : Nat) (e : Engine) (w : Word) (rest : List Action),
    s.admitted = true → s.pending = .write 32 e.params.base w :: rest → s.find e.params.base = some k →
    s.engines[k]? = some e → illegalOn e.params.kind w →
    step s = .next ((({ s with pending := rest, busRead := none }).select k).put
      { s.wire e with status := 0x05#32, trace := [] })

/-- A word of each of the 14 commands (30_encoding.md R71, R73; those with operands from V16, V26, V35 of 95_test_vectors.md), read as
the spec reads it. -/
def Obligations.SpecWordsDecodeAsListed : Prop :=
  decode .iec 0x00000001#32 = .ok .inInit ∧ decode .iec 0x00000002#32 = .ok .inLoad ∧
  decode .iec 0x00000003#32 = .ok .inReadbyte ∧ decode .iec 0x00000004#32 = .ok .inReadword ∧
  decode .iec 0x00000305#32 = .ok (.inReadall 3) ∧ decode .iec 0x00000906#32 = .ok (.inReadbit 9) ∧
  decode .iec 0x00FFFF06#32 = .ok (.inReadbit 65535) ∧
  decode .oec 0x00000011#32 = .ok .outInit ∧ decode .oec 0x00000012#32 = .ok .outEnable ∧
  decode .oec 0x00000013#32 = .ok .outDisable ∧ decode .oec 0x0000B214#32 = .ok (.outWritebyte 0xB2#8) ∧
  decode .oec 0x00123415#32 = .ok (.outWriteword 0x1234#16) ∧ decode .oec 0x00000316#32 = .ok (.outWriteall 3) ∧
  decode .oec 0x01000F17#32 = .ok (.outWritebit 15 true) ∧ decode .oec 0x00000F17#32 = .ok (.outWritebit 15 false) ∧
  decode .oec 0x00000018#32 = .ok .outDeinit

/-! The step (10_state.md R23, R36). -/

/-- A write of a legal word to CMD runs exec of the command it encodes on the engine whose window it is (R23), once the inputs of a
looped-back chip are the storage stage they are wired to (60_exceptions.md R220). That they are brought there by the write, and
nothing else is, is the model's choice: log entry 12. -/
def Obligations.StepRunsTheDecodedCommand : Prop :=
  ∀ (s : State) (k : Nat) (e : Engine) (w : Word) (i : Instr) (rest : List Action),
    s.admitted = true → s.pending = .write 32 e.params.base w :: rest → s.find e.params.base = some k →
    s.engines[k]? = some e → decode e.params.kind w = .ok i →
    step s = exec i (({ s with pending := rest, busRead := none }).select k) ∧
    (({ s with pending := rest, busRead := none }).select k).current = some (s.wire e) ∧
    ((∀ c, e.attached = .inputChip c → c.loop = none) → s.wire e = e) ∧
    (∀ c, e.attached = .inputChip c →
      s.wire e = { e with attached := .inputChip { c with inputs := s.wiredInputs e.params.n c } }) ∧
    (∀ c j o q, e.attached = .inputChip c → c.loop = some j → s.engines[j]? = some o → o.attached = .outputChip q →
      o.params.n = e.params.n → s.wiredInputs e.params.n c = q.storage)

/-- R206: every command completes, with one of the codes of R200, on the engine it was written to. -/
def Obligations.EveryCommandCompletesWithACode : Prop :=
  ∀ (i : Instr) (s : State) (e : Engine), s.current = some e →
    ∃ e', exec i s = .next (s.put e') ∧ e'.params = e.params ∧ e'.status.toNat ≤ 6

/-- R208: which code a command ends with when several conditions apply. That exec of a command of the other group, which no decoded
word asks for, ends with BAD_COMMAND as the word of it does (R74, R75) is the model's choice: log entry 19. -/
def Obligations.ResultCodeFollowsThePriority : Prop :=
  ∀ (i : Instr) (s : State) (e : Engine), s.current = some e →
    ∃ e', exec i s = .next (s.put e') ∧ e'.status = statusByPriority i e

/-- R207: what a command that does not end with OK leaves: STATUS, an empty trace, READY 0 after CONFIG_ERROR, RDATA 0 after
LENGTH_MISMATCH or RANGE_ERROR of the three commands that write it, and nothing else. -/
def Obligations.FailedCommandChangesNothingElse : Prop :=
  ∀ (i : Instr) (s : State) (e : Engine), s.current = some e →
    ∃ e', exec i s = .next (s.put e') ∧ (e'.status ≠ 0x00#32 → e' = { e with
      status := e'.status
      trace := []
      ready := if e'.status = 0x04#32 then false else e.ready
      rdata := if (e'.status = 0x02#32 ∨ e'.status = 0x03#32) ∧ writesRdata i = true then 0#32 else e.rdata })

/-- No step changes a parameter of any engine (10_state.md R22; R240: nor does a reset). -/
def Obligations.ParametersNeverChange : Prop :=
  ∀ s t : State, step s = .next t → t.engines.map Engine.params = s.engines.map Engine.params

/-- The invariants of R37 hold after every step from a state that has them. -/
def Obligations.StepKeepsTheInvariants : Prop :=
  ∀ s t : State, s.Inv → step s = .next t → t.Inv

/-- The reset state meets the invariants and is a configuration the model admits. -/
def Obligations.ResetMeetsTheInvariants : Prop :=
  State.reset.Inv ∧ State.reset.admitted = true

/-- Engines share no state (R2, R63, R224): a step leaves every engine but the one its action is about as it was. -/
def Obligations.StepTouchesOnlyTheAddressedEngine : Prop :=
  ∀ (s t : State) (a : Action) (rest : List Action) (k : Nat), s.pending = a :: rest → a.engine s = some k →
    step s = .next t → (∀ j, j ≠ k → t.engines[j]? = s.engines[j]?) ∧ t.pending = rest

/-- R63, R224: actions on distinct engines commute: either order leaves the same engines, where no input chip is looped back. That
actions interleave command by command is the model's choice: log entry 6. -/
def Obligations.ActionsOnDistinctEnginesCommute : Prop :=
  ∀ (s t u : State) (a b : Action) (rest : List Action) (j k : Nat), s.pending = a :: b :: rest →
    a.engine s = some j → b.engine s = some k → j ≠ k →
    (∀ e ∈ s.engines, ∀ c, e.attached = .inputChip c → c.loop = none) → step s = .next t → step t = .next u →
    ∃ v w, step { s with pending := b :: a :: rest } = .next v ∧ step v = .next w ∧ w.engines = u.engines ∧
      w.pending = u.pending

/-! The input expander controller (40_input_chain.md). -/

/-- R110: IN.INIT. -/
def Obligations.InInitChecksCapabilitiesThenInitialises : Prop :=
  ∀ (s : State) (e : Engine), s.current = some e → e.params.kind = .iec →
    ((e.params.bound.gpioInit && e.params.bound.setLoad && e.params.bound.setClock && e.params.bound.readData &&
        e.params.bound.delay) = true →
      ∃ f a, exec .inInit s = .next (s.put { e with
        ready := true, status := 0x00#32, loadQ := .low, clkQ := .low
        trace := [.gpioInit, .setClock false, .setLoad false], fresh := f, attached := a })) ∧
    ((e.params.bound.gpioInit && e.params.bound.setLoad && e.params.bound.setClock && e.params.bound.readData &&
        e.params.bound.delay) = false →
      exec .inInit s = .next (s.put { e with ready := false, status := 0x04#32, trace := [] }))

/-- R111: IN.LOAD. -/
def Obligations.InLoadEmitsOneLoadPulse : Prop :=
  ∀ (s : State) (e : Engine), s.current = some e → e.params.kind = .iec →
    (e.ready = true → ∃ f a, exec .inLoad s = .next (s.put { e with
        status := 0x00#32, loadQ := .low, trace := loadEvents e.params.delayUnit, fresh := f, attached := a })) ∧
    (e.ready = false → exec .inLoad s = .next (s.put { e with status := 0x06#32, trace := [] }))

/-- R112: IN.READBYTE. `ds` are the samples, d0 first. -/
def Obligations.InReadbyteAssemblesEightSamples : Prop :=
  encode .inReadbyte = 0x00000003#32 ∧
  ∀ (s : State) (e : Engine), s.current = some e → e.params.kind = .iec →
    (e.ready = true → e.params.n = 1 → ∃ (ds : List Bool) (r : Word) (f : Nat) (a : Attached), ds.length = 8 ∧
      (∀ j, r.getLsbD j = (decide (j < 8) && ds.getD (7 - j) false)) ∧
      exec .inReadbyte s = .next (s.put { e with
        status := 0x00#32, rdata := r, loadQ := .low, clkQ := .high
        trace := loadEvents e.params.delayUnit ++ ds.flatMap (sampleEvents e.params.delayUnit)
        fresh := f, attached := a })) ∧
    (e.ready = true → e.params.n ≠ 1 →
      exec .inReadbyte s = .next (s.put { e with status := 0x02#32, rdata := 0#32, trace := [] })) ∧
    (e.ready = false → exec .inReadbyte s = .next (s.put { e with status := 0x06#32, trace := [] }))

/-- R113: IN.READWORD. Samples d0..d7 are bits 7..0, d8..d15 are bits 15..8. -/
def Obligations.InReadwordAssemblesSixteenSamples : Prop :=
  encode .inReadword = 0x00000004#32 ∧
  ∀ (s : State) (e : Engine), s.current = some e → e.params.kind = .iec →
    (e.ready = true → e.params.n = 2 → ∃ (ds : List Bool) (r : Word) (f : Nat) (a : Attached), ds.length = 16 ∧
      (∀ j, j < 8 → r.getLsbD j = ds.getD (7 - j) false) ∧
      (∀ j, 8 ≤ j → j < 16 → r.getLsbD j = ds.getD (23 - j) false) ∧ r.toNat < 2 ^ 16 ∧
      exec .inReadword s = .next (s.put { e with
        status := 0x00#32, rdata := r, loadQ := .low, clkQ := .high
        trace := loadEvents e.params.delayUnit ++ ds.flatMap (sampleEvents e.params.delayUnit)
        fresh := f, attached := a })) ∧
    (e.ready = true → e.params.n ≠ 2 →
      exec .inReadword s = .next (s.put { e with status := 0x02#32, rdata := 0#32, trace := [] })) ∧
    (e.ready = false → exec .inReadword s = .next (s.put { e with status := 0x06#32, trace := [] }))

/-- R114: IN.READALL. Sample k is bit 7 - k % 8 of XBUF[k / 8] (R104, 20_memory.md R57). -/
def Obligations.InReadallFillsXbuf : Prop :=
  ∀ (s : State) (e : Engine) (len : Nat), s.current = some e → e.params.kind = .iec → e.xbuf.length = e.params.n →
    1 ≤ e.params.n →
    (e.ready = true → len = e.params.n → ∃ (ds : List Bool) (x : List Byte) (f : Nat) (a : Attached),
      ds.length = 8 * e.params.n ∧ x.length = e.params.n ∧
      (∀ k, k < 8 * e.params.n → byteBit (arrayByte x (k / 8)) (7 - k % 8) = ds.getD k false) ∧
      exec (.inReadall len) s = .next (s.put { e with
        status := 0x00#32, xbuf := x, loadQ := .low, clkQ := .high
        trace := loadEvents e.params.delayUnit ++ ds.flatMap (sampleEvents e.params.delayUnit)
        fresh := f, attached := a })) ∧
    (e.ready = true → len ≠ e.params.n →
      exec (.inReadall len) s = .next (s.put { e with status := 0x02#32, trace := [] })) ∧
    (e.ready = false → exec (.inReadall len) s = .next (s.put { e with status := 0x06#32, trace := [] }))

/-- R115: IN.READBIT. -/
def Obligations.InReadbitClocksToTheTarget : Prop :=
  ∀ (s : State) (e : Engine) (idx : Nat), s.current = some e → e.params.kind = .iec →
    (e.ready = true → idx < e.params.n * 8 → ∃ (d : Bool) (f : Nat) (a : Attached),
      exec (.inReadbit idx) s = .next (s.put { e with
        status := 0x00#32, rdata := if d then 1#32 else 0#32, loadQ := .low
        clkQ := if 8 * (idx / 8) + 7 - idx % 8 = 0 then e.clkQ else .high
        trace := loadEvents e.params.delayUnit ++
          (List.replicate (8 * (idx / 8) + 7 - idx % 8) (clockEvents e.params.delayUnit)).flatten ++ [.readData d]
        fresh := f, attached := a })) ∧
    (e.ready = true → e.params.n * 8 ≤ idx →
      exec (.inReadbit idx) s = .next (s.put { e with status := 0x03#32, rdata := 0#32, trace := [] })) ∧
    (e.ready = false → exec (.inReadbit idx) s = .next (s.put { e with status := 0x06#32, trace := [] }))

/-! The output expander controller (41_output_chain.md). -/

/-- R150: OUT.INIT. -/
def Obligations.OutInitChecksCapabilitiesThenPushesZeros : Prop :=
  ∀ (s : State) (e : Engine), s.current = some e → e.params.kind = .oec → 1 ≤ e.params.n →
    ((e.params.bound.gpioInit && e.params.bound.setLatch && e.params.bound.setClock && e.params.bound.setData &&
        e.params.bound.setOutputEnable && e.params.bound.delay) = true →
      ∃ f a, exec .outInit s = .next (s.put { e with
        ready := true, status := 0x00#32, cache := List.replicate e.params.n 0x00#8
        dataQ := .low, clkQ := .high, latchQ := .low, oeQ := .low
        trace := [.gpioInit, .setData false, .setClock false, .setLatch false, .setOutputEnable false] ++
          (List.replicate (8 * e.params.n) (shiftEvents e.params.delayUnit false)).flatten ++
          latchEvents e.params.delayUnit
        fresh := f, attached := a })) ∧
    ((e.params.bound.gpioInit && e.params.bound.setLatch && e.params.bound.setClock && e.params.bound.setData &&
        e.params.bound.setOutputEnable && e.params.bound.delay) = false →
      exec .outInit s = .next (s.put { e with ready := false, status := 0x04#32, trace := [] }))

/-- R151: OUT.ENABLE. -/
def Obligations.OutEnableDrivesTheEnableLine : Prop :=
  ∀ (s : State) (e : Engine), s.current = some e → e.params.kind = .oec →
    (e.ready = true → ∃ f a, exec .outEnable s = .next (s.put { e with
        status := 0x00#32, oeQ := .high, trace := [.setOutputEnable true], fresh := f, attached := a })) ∧
    (e.ready = false → exec .outEnable s = .next (s.put { e with status := 0x06#32, trace := [] }))

/-- R152: OUT.DISABLE. -/
def Obligations.OutDisableReleasesTheEnableLine : Prop :=
  ∀ (s : State) (e : Engine), s.current = some e → e.params.kind = .oec →
    (e.ready = true → ∃ f a, exec .outDisable s = .next (s.put { e with
        status := 0x00#32, oeQ := .low, trace := [.setOutputEnable false], fresh := f, attached := a })) ∧
    (e.ready = false → exec .outDisable s = .next (s.put { e with status := 0x06#32, trace := [] }))

/-- R157: OUT.DEINIT; READY and CACHE stay. -/
def Obligations.OutDeinitKeepsReadyAndCache : Prop :=
  ∀ (s : State) (e : Engine), s.current = some e → e.params.kind = .oec →
    (e.ready = true → ∃ f a, exec .outDeinit s = .next (s.put { e with
        status := 0x00#32, oeQ := .low, trace := [.setOutputEnable false], fresh := f, attached := a })) ∧
    (e.ready = false → exec .outDeinit s = .next (s.put { e with status := 0x06#32, trace := [] }))

/-- R153: OUT.WRITEBYTE. -/
def Obligations.OutWritebyteStoresAndPushes : Prop :=
  (∀ data : Byte, encode (.outWritebyte data) = 0x00000014#32 ||| (data.setWidth 32 <<< 8)) ∧
  ∀ (s : State) (e : Engine) (data : Byte), s.current = some e → e.params.kind = .oec → e.cache.length = e.params.n →
    (e.ready = true → e.params.n = 1 → ∃ f a, exec (.outWritebyte data) s = .next (s.put { e with
        status := 0x00#32, cache := [data]
        dataQ := Level.ofBool (data.getLsbD 0), clkQ := .high, latchQ := .low
        trace := ([7, 6, 5, 4, 3, 2, 1, 0].map data.getLsbD).flatMap (shiftEvents e.params.delayUnit) ++
          latchEvents e.params.delayUnit
        fresh := f, attached := a })) ∧
    (e.ready = true → e.params.n ≠ 1 →
      exec (.outWritebyte data) s = .next (s.put { e with status := 0x02#32, trace := [] })) ∧
    (e.ready = false → exec (.outWritebyte data) s = .next (s.put { e with status := 0x06#32, trace := [] }))

/-- R154: OUT.WRITEWORD; the data line carries DATA16[15] down to DATA16[0]. -/
def Obligations.OutWritewordStoresAndPushes : Prop :=
  (∀ data : Half, encode (.outWriteword data) = 0x00000015#32 ||| (data.setWidth 32 <<< 8)) ∧
  ∀ (s : State) (e : Engine) (data : Half), s.current = some e → e.params.kind = .oec → e.cache.length = e.params.n →
    (e.ready = true → e.params.n = 2 → ∃ f a, exec (.outWriteword data) s = .next (s.put { e with
        status := 0x00#32, cache := [data.extractLsb' 0 8, data.extractLsb' 8 8]
        dataQ := Level.ofBool (data.getLsbD 0), clkQ := .high, latchQ := .low
        trace := ([15, 14, 13, 12, 11, 10, 9, 8, 7, 6, 5, 4, 3, 2, 1, 0].map data.getLsbD).flatMap
          (shiftEvents e.params.delayUnit) ++ latchEvents e.params.delayUnit
        fresh := f, attached := a })) ∧
    (e.ready = true → e.params.n ≠ 2 →
      exec (.outWriteword data) s = .next (s.put { e with status := 0x02#32, trace := [] })) ∧
    (e.ready = false → exec (.outWriteword data) s = .next (s.put { e with status := 0x06#32, trace := [] }))

/-- R155: OUT.WRITEALL; the trace is the full-chain write of R143 over the new CACHE. -/
def Obligations.OutWriteallCopiesXbufAndPushes : Prop :=
  (∀ len : Nat, len < 65536 → encode (.outWriteall len) = 0x00000016#32 ||| (BitVec.ofNat 32 len <<< 8)) ∧
  ∀ (s : State) (e : Engine) (len : Nat), s.current = some e → e.params.kind = .oec → e.xbuf.length = e.params.n →
    1 ≤ e.params.n →
    (e.ready = true → len = e.params.n → ∃ f a, exec (.outWriteall len) s = .next (s.put { e with
        status := 0x00#32, cache := e.xbuf
        dataQ := Level.ofBool (byteBit (arrayByte e.xbuf 0) 0), clkQ := .high, latchQ := .low
        trace := fullWriteEvents e.params.delayUnit e.params.n e.xbuf
        fresh := f, attached := a })) ∧
    (e.ready = true → len ≠ e.params.n →
      exec (.outWriteall len) s = .next (s.put { e with status := 0x02#32, trace := [] })) ∧
    (e.ready = false → exec (.outWriteall len) s = .next (s.put { e with status := 0x06#32, trace := [] }))

/-- R156: OUT.WRITEBIT; bit i of CACHE is bit i % 8 of CACHE[i / 8] (20_memory.md R56). -/
def Obligations.OutWritebitSuppressesAnUnchangedBit : Prop :=
  (∀ (idx : Nat) (v : Bool), idx < 65536 → encode (.outWritebit idx v) =
    0x00000017#32 ||| (BitVec.ofNat 32 idx <<< 8) ||| ((if v then 1#32 else 0#32) <<< 24)) ∧
  ∀ (s : State) (e : Engine) (idx : Nat) (v : Bool), s.current = some e → e.params.kind = .oec →
    e.cache.length = e.params.n →
    (e.ready = true → idx < e.params.n * 8 → byteBit (arrayByte e.cache (idx / 8)) (idx % 8) ≠ v →
      ∃ (c : List Byte) (f : Nat) (a : Attached), c.length = e.params.n ∧
      (∀ i, i < e.params.n * 8 → byteBit (arrayByte c (i / 8)) (i % 8) =
        if i = idx then v else byteBit (arrayByte e.cache (i / 8)) (i % 8)) ∧
      exec (.outWritebit idx v) s = .next (s.put { e with
        status := 0x00#32, cache := c
        dataQ := Level.ofBool (byteBit (arrayByte c 0) 0), clkQ := .high, latchQ := .low
        trace := fullWriteEvents e.params.delayUnit e.params.n c
        fresh := f, attached := a })) ∧
    (e.ready = true → idx < e.params.n * 8 → byteBit (arrayByte e.cache (idx / 8)) (idx % 8) = v →
      exec (.outWritebit idx v) s = .next (s.put { e with status := 0x01#32, trace := [] })) ∧
    (e.ready = true → e.params.n * 8 ≤ idx →
      exec (.outWritebit idx v) s = .next (s.put { e with status := 0x03#32, trace := [] })) ∧
    (e.ready = false → exec (.outWritebit idx v) s = .next (s.put { e with status := 0x06#32, trace := [] }))

/-- R159 (a): the same OUT.WRITEBIT again, at once, is UNCHANGED with an empty trace. -/
def Obligations.OutWritebitTwiceIsUnchanged : Prop :=
  ∀ (s : State) (e : Engine) (idx : Nat) (v : Bool), s.current = some e → e.params.kind = .oec → e.ready = true →
    e.cache.length = e.params.n → idx < e.params.n * 8 →
    ∃ e', exec (.outWritebit idx v) s = .next (s.put e') ∧ (e'.status = 0x00#32 ∨ e'.status = 0x01#32) ∧
      exec (.outWritebit idx v) (s.put e') = .next (s.put { e' with status := 0x01#32, trace := [] })

/-- R159 (c): after any sequence of OUT.WRITEBIT commands in range, every bit of CACHE is the last value written to it; and if one
of them ended with OK, or the storage stage of the reference chip held the CACHE of the start, the storage stage holds CACHE. -/
def Obligations.WritebitSequencesKeepTheChipEqualToTheCache : Prop :=
  ∀ (ws : List (Nat × Bool)) (s : State) (e : Engine) (c : OutputChip), s.current = some e → e.params.kind = .oec →
    e.ready = true → e.Inv → e.attached = .outputChip c → (∀ w ∈ ws, w.1 < e.params.n * 8) →
    ∃ e' c', execAll (ws.map fun w => .outWritebit w.1 w.2) s = .next (s.put e') ∧ e'.attached = .outputChip c' ∧
      e'.cache.length = e.params.n ∧
      (∀ i, i < e.params.n * 8 → byteBit (arrayByte e'.cache (i / 8)) (i % 8) =
        ((ws.filter fun w => w.1 == i).getLast?.map Prod.snd).getD (byteBit (arrayByte e.cache (i / 8)) (i % 8))) ∧
      ((∃ pre w post t u x, ws = pre ++ w :: post ∧ execAll (pre.map fun w => .outWritebit w.1 w.2) s = .next t ∧
          exec (.outWritebit w.1 w.2) t = .next u ∧ u.current = some x ∧ x.status = 0x00#32) ∨
        (∀ i, i < e.params.n * 8 → c.storage[i]? = some (byteBit (arrayByte e.cache (i / 8)) (i % 8))) →
        ∀ i, i < e.params.n * 8 → c'.storage[i]? = some (byteBit (arrayByte e'.cache (i / 8)) (i % 8)))

/-- R160: any sequence of OUT.ENABLE, OUT.DISABLE and OUT.DEINIT changes only OE_Q and STATUS, so it leaves CACHE, and what is on
the pins (both stages of a reference chip), as they were. -/
def Obligations.EnableTogglingKeepsThePattern : Prop :=
  ∀ (is : List Instr) (s : State) (e : Engine), s.current = some e → e.params.kind = .oec →
    (∀ i ∈ is, togglesEnable i = true) →
    ∃ e', execAll is s = .next (s.put e') ∧ e'.attached = e.attached ∧
      e' = { e with status := e'.status, oeQ := e'.oeQ, trace := e'.trace, fresh := e'.fresh }

/-! Bit order (20_memory.md). -/

/-- R57: pos maps [0, N*8) onto itself, keeps each chip's indices within the chip, and is its own inverse. -/
def Obligations.SamplePositionIsItsOwnInverse : Prop :=
  ∀ n i : Nat, i < n * 8 →
    pos i = 8 * (i / 8) + 7 - i % 8 ∧ pos i < n * 8 ∧ pos i / 8 = i / 8 ∧ pos (pos i) = i

/-- R58: the bits a full-chain write puts on the data line, by time and by bit index. -/
def Obligations.ChainIsShiftedMostSignificantChipFirst : Prop :=
  ∀ e : Engine, (drivenBits e.begin.fullWrite.trace).length = e.params.n * 8 ∧
    (∀ t, t < e.params.n * 8 → (drivenBits e.begin.fullWrite.trace).getD t false =
      byteBit (arrayByte e.cache (e.params.n - 1 - t / 8)) (7 - t % 8)) ∧
    (∀ i, i < e.params.n * 8 → (drivenBits e.begin.fullWrite.trace).getD (8 * (e.params.n - 1 - i / 8) + 7 - i % 8) false =
      byteBit (arrayByte e.cache (i / 8)) (i % 8))

/-! What is on the pins (00_scope.md R14, 60_exceptions.md R215 to R220). -/

/-- R14: one draw for each `ReadData` event. That the draws of a data line under no law are a list in State, of which each sample
takes the next one and the rest stays, is the model's choice: log entry 1. -/
def Obligations.DrawsAreSampledInOrder : Prop :=
  ∀ (i : Instr) (s : State) (e : Engine) (ds : List Bool), s.current = some e → e.attached = .line ds →
    ∃ e', exec i s = .next (s.put e') ∧ ((samplesOf e'.trace).length ≤ ds.length →
      samplesOf e'.trace = ds.take (samplesOf e'.trace).length ∧
      e'.attached = .line (ds.drop (samplesOf e'.trace).length))

/-- With the reference input chip (R216), every read gives the chip's parallel inputs by bit index, so the reads agree with each
other as R117 says. -/
def Obligations.ReadsGiveTheInputsOfTheChip : Prop :=
  ∀ (s : State) (e : Engine) (c : InputChip), s.current = some e → e.params.kind = .iec → e.ready = true →
    e.attached = .inputChip c → e.attached.fits e.params = true → e.xbuf.length = e.params.n →
    (∃ e', exec (.inReadall e.params.n) s = .next (s.put e') ∧ e'.status = 0x00#32 ∧
      ∀ i, i < 8 * e.params.n → byteBit (arrayByte e'.xbuf (i / 8)) (i % 8) = c.inputs.getD i false) ∧
    (∀ i, i < 8 * e.params.n → ∃ e', exec (.inReadbit i) s = .next (s.put e') ∧ e'.status = 0x00#32 ∧
      e'.rdata = if c.inputs.getD i false then 1#32 else 0#32) ∧
    (e.params.n = 1 → ∃ e', exec .inReadbyte s = .next (s.put e') ∧ e'.status = 0x00#32 ∧
      ∀ i, i < 32 → e'.rdata.getLsbD i = (decide (i < 8) && c.inputs.getD i false)) ∧
    (e.params.n = 2 → ∃ e', exec .inReadword s = .next (s.put e') ∧ e'.status = 0x00#32 ∧
      ∀ i, i < 32 → e'.rdata.getLsbD i = (decide (i < 16) && c.inputs.getD i false))

/-- With the reference output chip (R217, R218): after every command that ends with a full-chain write, both stages hold bit
CACHE[c][j] at place 8c+j, whether or not outputs are enabled (R144). -/
def Obligations.FullChainWriteReachesTheChip : Prop :=
  ∀ (i : Instr) (s : State) (e : Engine) (c : OutputChip), s.current = some e → e.params.kind = .oec →
    e.attached = .outputChip c → e.Inv → writesChain i = true → statusByPriority i e = 0x00#32 →
    ∃ e' c', exec i s = .next (s.put e') ∧ e'.status = 0x00#32 ∧ e'.attached = .outputChip c' ∧
      c'.shift.length = 8 * e.params.n ∧ c'.storage.length = 8 * e.params.n ∧
      ∀ k, k < 8 * e.params.n → c'.storage.getD k false = byteBit (arrayByte e'.cache (k / 8)) (k % 8) ∧
        c'.shift.getD k false = byteBit (arrayByte e'.cache (k / 8)) (k % 8)

/-- R218, R144: the shift steps of a write change only the shift stage; the outputs change once, at the latch pulse. -/
def Obligations.ShiftStepsLeaveTheStorageStage : Prop :=
  ∀ (bs : List Bool) (e : Engine) (c : OutputChip), e.attached = .outputChip c →
    ∃ c', (Engine.shiftOut bs e).attached = .outputChip c' ∧ c'.storage = c.storage ∧
      ((Engine.shiftOut bs e).latchQ = .low →
        (Engine.shiftOut bs e).latchPulse.attached = .outputChip { c' with storage := c'.shift })

/-- R219: outputs drive the storage stage when OE_Q = 1, as after OUT.ENABLE, are high impedance when OE_Q = 0, as after OUT.DISABLE
and OUT.DEINIT, and are unspecified while OE_Q is U; the stages stay. -/
def Obligations.OutputEnableGatesTheStorageStage : Prop :=
  ∀ (s : State) (e : Engine) (c : OutputChip), s.current = some e → e.params.kind = .oec →
    e.attached = .outputChip c →
    (e.oeQ = .high → ∀ p b, c.storage[p]? = some b → e.outputPin p = .drives b) ∧
    (e.oeQ = .low → ∀ p, e.outputPin p = .highZ) ∧
    (e.oeQ = .undriven → ∀ p, e.outputPin p = .unspecified) ∧
    (e.ready = true → ∃ e', exec .outEnable s = .next (s.put e') ∧ e'.attached = .outputChip c ∧
      ∀ p b, c.storage[p]? = some b → e'.outputPin p = .drives b) ∧
    (e.ready = true → ∃ e', exec .outDisable s = .next (s.put e') ∧ e'.attached = .outputChip c ∧
      ∀ p, e'.outputPin p = .highZ) ∧
    (e.ready = true → ∃ e', exec .outDeinit s = .next (s.put e') ∧ e'.attached = .outputChip c ∧
      ∀ p, e'.outputPin p = .highZ)

/-- R220: OUT.WRITEALL N on an OEC and then IN.READALL N on the IEC it is looped back to gives the OEC's XBUF back, for every
N and every pattern. That the wiring acts when a command is written to the IEC is the model's choice: log entry 12. -/
def Obligations.LoopbackRoundTripGivesThePatternBack : Prop :=
  ∀ (s : State) (o k : Nat) (eo ek : Engine) (q : OutputChip) (c : InputChip) (rest : List Action),
    s.admitted = true → s.Inv → s.engines[o]? = some eo → s.engines[k]? = some ek →
    eo.params.kind = .oec → ek.params.kind = .iec → eo.ready = true → ek.ready = true →
    eo.attached = .outputChip q → ek.attached = .inputChip c → c.loop = some o → eo.params.n = ek.params.n →
    s.find eo.params.base = some o → s.find ek.params.base = some k →
    s.pending = .write 32 eo.params.base (encode (.outWriteall eo.params.n)) ::
      .write 32 ek.params.base (encode (.inReadall ek.params.n)) :: rest →
    ∃ t u eo' ek', step s = .next t ∧ step t = .next u ∧ u.engines[o]? = some eo' ∧ u.engines[k]? = some ek' ∧
      eo'.status = 0x00#32 ∧ ek'.status = 0x00#32 ∧ ek'.xbuf = eo.xbuf ∧ u.pending = rest

/-- R59: a 16-bit value written by OUT.WRITEWORD and read back by IN.READWORD through the loopback wiring (R220) is unchanged. That
the wiring acts when the command is written to the IEC is the model's choice: log entry 12. -/
def Obligations.LoopbackWordRoundTripIsUnchanged : Prop :=
  ∀ (s : State) (o k : Nat) (eo ek : Engine) (q : OutputChip) (c : InputChip) (data : Half) (rest : List Action),
    s.admitted = true → s.Inv → s.engines[o]? = some eo → s.engines[k]? = some ek →
    eo.params.kind = .oec → ek.params.kind = .iec → eo.ready = true → ek.ready = true →
    eo.attached = .outputChip q → ek.attached = .inputChip c → c.loop = some o → eo.params.n = 2 → ek.params.n = 2 →
    s.find eo.params.base = some o → s.find ek.params.base = some k →
    s.pending = .write 32 eo.params.base (encode (.outWriteword data)) ::
      .write 32 ek.params.base (encode .inReadword) :: rest →
    ∃ t u ek', step s = .next t ∧ step t = .next u ∧ u.engines[k]? = some ek' ∧
      ek'.status = 0x00#32 ∧ ek'.rdata = data.setWidth 32

/-! The host's window (10_state.md R35, 20_memory.md R51 to R53). -/

/-- R35, R51: what each host read returns, with no side effect. -/
def Obligations.HostReadsReturnTheRegisters : Prop :=
  ∀ (s : State) (k off bits : Nat) (e : Engine) (rest : List Action), s.admitted = true →
    s.pending = .read bits (e.params.base + off) :: rest → s.find (e.params.base + off) = some k →
    s.engines[k]? = some e → e.xbuf.length = e.params.n →
    (bits = 32 → off = 0x0000 → step s = .next { s with pending := rest, busRead := some 0#32 }) ∧
    (bits = 32 → off = 0x0004 → step s = .next { s with pending := rest, busRead := some e.status }) ∧
    (bits = 32 → off = 0x0008 → step s = .next { s with pending := rest, busRead := some e.rdata }) ∧
    (bits = 32 → off = 0x000C → ∃ r : Word, step s = .next { s with pending := rest, busRead := some r } ∧
      r.extractLsb' 0 16 = BitVec.ofNat 16 e.params.n ∧ r.getLsbD 16 = decide (e.params.kind = .oec) ∧
      r.getLsbD 17 = e.ready ∧ r.extractLsb' 18 14 = 0#14) ∧
    (bits = 32 → 0x0010 ≤ off → off < 0x0100 → off % 4 = 0 →
      step s = .next { s with pending := rest, busRead := some 0#32 }) ∧
    (∀ j b, bits = 8 → off = 0x0100 + j → e.xbuf[j]? = some b →
      step s = .next { s with pending := rest, busRead := some (b.setWidth 32) }) ∧
    (bits = 8 → 0x0100 + e.params.n ≤ off → off < 0x2100 →
      step s = .next { s with pending := rest, busRead := some 0#32 })

/-- R52: a byte written to XBUF reads back, and the write changes that byte only. -/
def Obligations.XbufByteReadsBackAsWritten : Prop :=
  ∀ (s : State) (k j : Nat) (e : Engine) (v : Word) (rest : List Action), s.admitted = true →
    s.pending = .write 8 (e.params.base + 0x0100 + j) v :: .read 8 (e.params.base + 0x0100 + j) :: rest →
    s.find (e.params.base + 0x0100 + j) = some k → s.engines[k]? = some e → e.xbuf.length = e.params.n → j < e.params.n →
    ∃ t e', step s = .next t ∧ t = { s with
        pending := .read 8 (e.params.base + 0x0100 + j) :: rest, busRead := none, engines := s.engines.set k e' } ∧
      e' = { e with xbuf := e'.xbuf } ∧ e'.xbuf.length = e.params.n ∧ arrayByte e'.xbuf j = v.extractLsb' 0 8 ∧
      (∀ i, i ≠ j → arrayByte e'.xbuf i = arrayByte e.xbuf i) ∧
      step t = .next { t with pending := rest, busRead := some ((v.extractLsb' 0 8).setWidth 32) }

/-- R35, R51: a host write to STATUS, RDATA, INFO or a reserved offset has no effect. -/
def Obligations.WritesToReadOnlyOffsetsHaveNoEffect : Prop :=
  ∀ (s : State) (k off bits : Nat) (e : Engine) (v : Word) (rest : List Action), s.admitted = true →
    s.pending = .write bits (e.params.base + off) v :: rest → s.find (e.params.base + off) = some k →
    s.engines[k]? = some e →
    (bits = 32 ∧ off % 4 = 0 ∧ 0x0004 ≤ off ∧ off < 0x0100) ∨ (bits = 8 ∧ 0x0100 + e.params.n ≤ off ∧ off < 0x2100) →
    step s = .next { s with pending := rest, busRead := none }

/-- R53: any other host access is refused: of a wrong width, misaligned, or outside every window. -/
def Obligations.OtherHostAccessesAreRefused : Prop :=
  ∀ (s : State) (bits addr : Nat) (v : Word) (a : Action) (rest : List Action), s.admitted = true →
    a = .read bits addr ∨ a = .write bits addr v → s.pending = a :: rest →
    ((∀ e ∈ s.engines, addr < e.params.base ∨ e.params.base + 0x2100 ≤ addr) → step s = .refused .badAccess) ∧
    (∀ k e, s.find addr = some k → s.engines[k]? = some e →
      ¬ (bits = 32 ∧ (addr - e.params.base) % 4 = 0 ∧ addr - e.params.base < 0x0100) →
      ¬ (bits = 8 ∧ 0x0100 ≤ addr - e.params.base) → step s = .refused .badAccess)

/-- R225: instances with a line in common, and R7 (U18): an N outside 1 to 8192, are a configuration the model refuses. R225 speaks of
instances whose commands may interleave; that all with a line in common are refused is the model's choice: log entry 13. -/
def Obligations.ConfigurationsOutsideTheSpecAreRefused : Prop :=
  (∀ (s : State) (i j l : Nat) (p q : Engine), i ≠ j → s.engines[i]? = some p → s.engines[j]? = some q →
    l ∈ p.params.lines → l ∈ q.params.lines → step s = .refused .badConfiguration) ∧
  (∀ (s : State) (e : Engine), e ∈ s.engines → e.params.n = 0 ∨ 8192 < e.params.n → step s = .refused .badConfiguration)

/-- R240, R39: what a reset of one instance leaves; it emits no event, keeps the parameters, does not reach the chips and affects
no other instance. -/
def Obligations.ResetRestoresOneEngine : Prop :=
  ∀ (s : State) (k : Nat) (e : Engine) (rest : List Action), s.admitted = true → s.pending = .reset k :: rest →
    s.engines[k]? = some e →
    ∃ t e', step s = .next t ∧ t.engines[k]? = some e' ∧ t.pending = rest ∧
      e'.ready = false ∧ e'.status = 0x00000000#32 ∧ e'.rdata = 0x00000000#32 ∧ e'.xbuf.length = e.params.n ∧
      (e.params.kind = .oec → e'.cache = List.replicate e.params.n 0x00#8) ∧
      e'.loadQ = .undriven ∧ e'.clkQ = .undriven ∧ e'.dataQ = .undriven ∧ e'.latchQ = .undriven ∧ e'.oeQ = .undriven ∧
      e'.trace = [] ∧ e'.params = e.params ∧ e'.attached = e.attached ∧ ∀ j, j ≠ k → t.engines[j]? = s.engines[j]?

/-- With no host action to come the engines keep all their state (R214, R241). The step's answer is the model's choice: log entry 4. -/
def Obligations.IdleEnginesKeepTheirState : Prop :=
  ∀ s : State, s.admitted = true → s.pending = [] → step s = .next s

/-! Rules over all commands. -/

/-- R251: delay units, events and samples of every command, by its trace: the counts of the table when it ends with OK, none
otherwise. -/
def Obligations.TraceCountsAreThoseOfTheTable : Prop :=
  ∀ (i : Instr) (s : State) (e : Engine), s.current = some e →
    ∃ e', exec i s = .next (s.put e') ∧
      (delaysIn e'.trace, e'.trace.length, (samplesOf e'.trace).length) =
        if e'.status = 0x00#32 then okCounts e.params.n i else (0, 0, 0)

/-- R105: what each IEC command leaves unchanged. -/
def Obligations.InputCommandsWriteOnlyTheirOwnState : Prop :=
  ∀ (i : Instr) (s : State) (e : Engine), i.kind = .iec → s.current = some e →
    ∃ e', exec i s = .next (s.put e') ∧ e' = { e' with
      params := e.params, cache := e.cache, dataQ := e.dataQ, latchQ := e.latchQ, oeQ := e.oeQ
      ready := if i = .inInit then e'.ready else e.ready
      rdata := if writesRdata i = true then e'.rdata else e.rdata
      xbuf := match i with
        | .inReadall _ => e'.xbuf
        | _ => e.xbuf }

/-- R105, R36: the results of an IEC command depend on its parameters, READY, its operands and its draws only: two engines that agree
in these, whatever else they hold, get the same STATUS, READY and trace, the same RDATA and XBUF where it writes them. (LOAD_Q
and CLK_Q, which the trace and the levels before it give, are no part of it.) That the draws left are the same too rests on the
model's choice: log entry 1. -/
def Obligations.InputResultsDependOnlyOnTheDraws : Prop :=
  ∀ (i : Instr) (s t : State) (e f : Engine) (ds : List Bool), i.kind = .iec → s.current = some e → t.current = some f →
    f.params = e.params → f.ready = e.ready → e.attached = .line ds → f.attached = .line ds →
    8 * e.params.n ≤ ds.length → 1 ≤ e.params.n → e.xbuf.length = e.params.n → f.xbuf.length = e.params.n →
    ∃ e' f', exec i s = .next (s.put e') ∧ exec i t = .next (t.put f') ∧ f'.status = e'.status ∧ f'.ready = e'.ready ∧
      f'.trace = e'.trace ∧ f'.attached = e'.attached ∧
      (writesRdata i = true → e'.status.toNat < 5 → f'.rdata = e'.rdata) ∧
      (∀ len, i = .inReadall len → e'.status = 0x00#32 → f'.xbuf = e'.xbuf)

/-- What each OEC command leaves unchanged: RDATA, XBUF and the IEC's load line by all (R25, R28), READY by all but OUT.INIT (R26),
CACHE by all but the commands that write the chain (R30). -/
def Obligations.OutputCommandsWriteOnlyTheirOwnState : Prop :=
  ∀ (i : Instr) (s : State) (e : Engine), i.kind = .oec → s.current = some e →
    ∃ e', exec i s = .next (s.put e') ∧ e' = { e' with
      params := e.params, rdata := e.rdata, xbuf := e.xbuf, loadQ := e.loadQ
      ready := if i = .outInit then e'.ready else e.ready
      cache := if writesChain i = true then e'.cache else e.cache }

/-- R34: no command reads STATUS, so what it does never depends on the result of the one before. -/
def Obligations.NoCommandReadsStatus : Prop :=
  ∀ (i : Instr) (s : State) (e : Engine) (x : Word), s.current = some e →
    exec i (s.put { e with status := x }) = exec i s

/-- R13: an engine emits only the events of its kind, and every delay is of DELAY_UNIT. -/
def Obligations.EnginesEmitOnlyTheirEvents : Prop :=
  ∀ (i : Instr) (s : State) (e : Engine), s.current = some e →
    ∃ e', exec i s = .next (s.put e') ∧ ∀ ev ∈ e'.trace, ev.allowed e.params.kind e.params.delayUnit = true
end

