-- ==== Sys2Proof/Laws/Memory.lean ====
section
/-! SUPPORT. XBUF and CACHE as arrays of exactly N bytes (10_state.md R37): every operation keeps the length, and reads after
writes (20_memory.md R52, R54). Bits of bytes likewise (41_output_chain.md R158). -/

namespace Sys2Proof.Machine

theorem setArrayByte_wf {n : Nat} {a : List Byte} (h : Memory.wf n a) (c : Nat) (v : Byte) :
    Memory.wf n (setArrayByte a c v) := by
  simpa [Memory.wf, setArrayByte] using h

theorem setArrayBit_wf {n : Nat} {a : List Byte} (h : Memory.wf n a) (i : Nat) (v : Bool) :
    Memory.wf n (setArrayBit a i v) :=
  setArrayByte_wf h _ _

theorem memWrite_wf {n : Nat} {e : Engine} (h : Memory.wf n e.xbuf) (k : Nat) (v : Byte) :
    Memory.wf n (e.memWrite k v).xbuf :=
  setArrayByte_wf h _ _

theorem memWriteAll_wf {n : Nat} (bs : List Byte) :
    ∀ (k : Nat) {e : Engine}, Memory.wf n e.xbuf → Memory.wf n (Engine.memWriteAll k bs e).xbuf := by
  induction bs with
  | nil => intro k e h; exact h
  | cons b bs ih => intro k e h; exact ih (k + 1) (memWrite_wf h k b)

/-- Storing a list of bytes changes XBUF and nothing else. -/
theorem memWriteAll_frame (bs : List Byte) : ∀ (k : Nat) (e : Engine),
    Engine.memWriteAll k bs e = { e with xbuf := (Engine.memWriteAll k bs e).xbuf } := by
  induction bs with
  | nil => intro k e; rfl
  | cons b bs ih =>
    intro k e
    exact ih (k + 1) (e.memWrite k b)

theorem atReset_xbuf_wf (p : Params) (f : Nat) (a : Attached) : Memory.wf p.n (Engine.atReset p f a).xbuf := by
  simp [Memory.wf, Engine.atReset]

theorem arrayByte_set_self {a : List Byte} {c : Nat} (h : c < a.length) (v : Byte) :
    arrayByte (setArrayByte a c v) c = v := by
  simp [arrayByte, setArrayByte, h]

theorem arrayByte_set_other (a : List Byte) {c d : Nat} (h : d ≠ c) (v : Byte) :
    arrayByte (setArrayByte a c v) d = arrayByte a d := by
  simp [arrayByte, setArrayByte, List.getElem?_set_ne (Ne.symm h)]

/-- Two arrays of N bytes that read alike are the same list: the form is canonical. -/
theorem memory_ext {n : Nat} {a b : List Byte} (ha : Memory.wf n a) (hb : Memory.wf n b)
    (h : ∀ c < n, arrayByte a c = arrayByte b c) : a = b := by
  apply List.ext_getElem (ha.trans hb.symm)
  intro c h1 h2
  have := h c (ha ▸ h1)
  simpa [arrayByte, h1, h2] using this

theorem byteBit_setByteBit_self (b : Byte) {j : Nat} (h : j < 8) (v : Bool) : byteBit (setByteBit b j v) j = v := by
  cases v <;> simp [byteBit, setByteBit, h]

theorem byteBit_setByteBit_other (b : Byte) {j k : Nat} (h : k ≠ j) (v : Bool) :
    byteBit (setByteBit b j v) k = byteBit b k := by
  by_cases hk : k < 8
  · rcases Nat.lt_or_gt_of_ne h with h' | h'
    · cases v <;> simp [byteBit, setByteBit, hk, h']
    · have h0 : ¬ (k - j) = 0 := by omega
      cases v <;> simp [byteBit, setByteBit, hk, Nat.not_lt.mpr (Nat.le_of_lt h'), h0]
  · cases v <;> simp [byteBit, setByteBit, BitVec.getLsbD_of_ge _ _ (Nat.not_lt.mp hk)]

/-- `CACHE[c][j] <- v` changes exactly one bit (R158). -/
theorem arrayBit_setArrayBit {n : Nat} {a : List Byte} (ha : Memory.wf n a) {i k : Nat} (hi : i < 8 * n) (v : Bool) :
    arrayBit (setArrayBit a i v) k = if k = i then v else arrayBit a k := by
  have hc : chipOf i < a.length := by rw [ha]; unfold chipOf; omega
  by_cases hk : chipOf k = chipOf i
  · unfold arrayBit setArrayBit
    rw [hk, arrayByte_set_self hc]
    by_cases hb : bitOf k = bitOf i
    · have : k = i := by unfold chipOf bitOf at *; omega
      rw [hb, byteBit_setByteBit_self _ (by unfold bitOf; omega), if_pos this]
    · have : k ≠ i := fun h => hb (by rw [h])
      rw [byteBit_setByteBit_other _ hb, if_neg this]
  · have : k ≠ i := fun h => hk (by rw [h])
    unfold arrayBit setArrayBit
    rw [arrayByte_set_other _ hk, if_neg this]

/-- Two arrays of N bytes with the same bits are the same list. -/
theorem memory_bit_ext {n : Nat} {a b : List Byte} (ha : Memory.wf n a) (hb : Memory.wf n b)
    (h : ∀ i, i < 8 * n → arrayBit a i = arrayBit b i) : a = b := by
  apply memory_ext ha hb
  intro c hc
  apply BitVec.eq_of_getLsbD_eq
  intro j hj
  have := h (8 * c + j) (by omega)
  unfold arrayBit chipOf bitOf at this
  have h1 : (8 * c + j) / 8 = c := by omega
  have h2 : (8 * c + j) % 8 = j := by omega
  rw [h1, h2] at this
  exact this

end Sys2Proof.Machine
end

