-- ==== Sys2Proof/Laws/State.lean ====
section
/-! SUPPORT. The small lemmas of the state: what each field is after an event, after completing a command, and after an engine is
put back. -/

namespace Sys2Proof.Machine

section Emit

variable (ev : Event) (e : Engine)

@[simp] theorem emit_params : (e.emit ev).params = e.params := by cases ev <;> rfl
@[simp] theorem emit_ready : (e.emit ev).ready = e.ready := by cases ev <;> rfl
@[simp] theorem emit_status : (e.emit ev).status = e.status := by cases ev <;> rfl
@[simp] theorem emit_rdata : (e.emit ev).rdata = e.rdata := by cases ev <;> rfl
@[simp] theorem emit_xbuf : (e.emit ev).xbuf = e.xbuf := by cases ev <;> rfl
@[simp] theorem emit_cache : (e.emit ev).cache = e.cache := by cases ev <;> rfl
@[simp] theorem emit_trace : (e.emit ev).trace = e.trace ++ [ev] := rfl
@[simp] theorem emit_fresh : (e.emit ev).fresh = e.fresh + 1 := rfl
@[simp] theorem emit_attached : (e.emit ev).attached = e.attachedAfter ev := rfl
@[simp] theorem emit_loadQ : (e.emit ev).loadQ = (e.drive ev).loadQ := rfl
@[simp] theorem emit_clkQ : (e.emit ev).clkQ = (e.drive ev).clkQ := rfl
@[simp] theorem emit_dataQ : (e.emit ev).dataQ = (e.drive ev).dataQ := rfl
@[simp] theorem emit_latchQ : (e.emit ev).latchQ = (e.drive ev).latchQ := rfl
@[simp] theorem emit_oeQ : (e.emit ev).oeQ = (e.drive ev).oeQ := rfl

end Emit

section Finish

variable (c : Code) (e : Engine)

@[simp] theorem finish_params : (e.finish c).params = e.params := rfl
@[simp] theorem finish_ready : (e.finish c).ready = e.ready := rfl
@[simp] theorem finish_status : (e.finish c).status = c.statusWord := rfl
@[simp] theorem finish_rdata : (e.finish c).rdata = e.rdata := rfl
@[simp] theorem finish_xbuf : (e.finish c).xbuf = e.xbuf := rfl
@[simp] theorem finish_cache : (e.finish c).cache = e.cache := rfl
@[simp] theorem finish_trace : (e.finish c).trace = e.trace := rfl
@[simp] theorem finish_fresh : (e.finish c).fresh = e.fresh := rfl
@[simp] theorem finish_attached : (e.finish c).attached = e.attached := rfl
@[simp] theorem finish_loadQ : (e.finish c).loadQ = e.loadQ := rfl
@[simp] theorem finish_clkQ : (e.finish c).clkQ = e.clkQ := rfl
@[simp] theorem finish_dataQ : (e.finish c).dataQ = e.dataQ := rfl
@[simp] theorem finish_latchQ : (e.finish c).latchQ = e.latchQ := rfl
@[simp] theorem finish_oeQ : (e.finish c).oeQ = e.oeQ := rfl

end Finish

section Begin

variable (e : Engine)

@[simp] theorem begin_params : e.begin.params = e.params := rfl
@[simp] theorem begin_ready : e.begin.ready = e.ready := rfl
@[simp] theorem begin_status : e.begin.status = e.status := rfl
@[simp] theorem begin_rdata : e.begin.rdata = e.rdata := rfl
@[simp] theorem begin_xbuf : e.begin.xbuf = e.xbuf := rfl
@[simp] theorem begin_cache : e.begin.cache = e.cache := rfl
@[simp] theorem begin_trace : e.begin.trace = [] := rfl
@[simp] theorem begin_fresh : e.begin.fresh = e.fresh := rfl
@[simp] theorem begin_attached : e.begin.attached = e.attached := rfl
@[simp] theorem begin_loadQ : e.begin.loadQ = e.loadQ := rfl
@[simp] theorem begin_clkQ : e.begin.clkQ = e.clkQ := rfl
@[simp] theorem begin_dataQ : e.begin.dataQ = e.dataQ := rfl
@[simp] theorem begin_latchQ : e.begin.latchQ = e.latchQ := rfl
@[simp] theorem begin_oeQ : e.begin.oeQ = e.oeQ := rfl

end Begin

section Put

variable (e a : Engine) (s : State)

@[simp] theorem put_engines : (s.put e).engines = s.engines.set s.target e := rfl
@[simp] theorem put_target : (s.put e).target = s.target := rfl
@[simp] theorem put_pending : (s.put e).pending = s.pending := rfl
@[simp] theorem put_busRead : (s.put e).busRead = s.busRead := rfl

@[simp] theorem put_put : (s.put e).put a = s.put a := by
  simp [State.put]

/-- The engine put back is the current one. -/
theorem current_put {s : State} {e : Engine} (h : s.current = some e) (a : Engine) : (s.put a).current = some a := by
  have hlt : s.target < s.engines.length := (List.getElem?_eq_some_iff.mp h).1
  simp [State.current, State.put, hlt]

/-- Equal engines put back give equal outcomes. -/
theorem next_put_congr {s : State} {a b : Engine} (h : a = b) :
    (Host.Outcome.next (s.put a) : Host.Outcome State Fault Refusal) = .next (s.put b) := by
  rw [h]

/-- Putting the current engine back changes nothing. -/
theorem put_self {s : State} {e : Engine} (h : s.current = some e) : s.put e = s := by
  unfold State.put State.current at *
  obtain ⟨h1, h2⟩ := List.getElem?_eq_some_iff.mp h
  rw [← h2, List.set_getElem_self]

/-- Every other engine is as it was. -/
theorem put_other {j : Nat} (h : j ≠ s.target) : (s.put a).engines[j]? = s.engines[j]? := by
  simp [State.put, List.getElem?_set_ne (Ne.symm h)]

end Put

/-- Once for all commands: a command on the current engine completes, with the body's engine or with BAD_COMMAND. -/
theorem command_of_current {s : State} {e : Engine} (h : s.current = some e) (k : Kind) (body : Engine → Engine) :
    s.command k body = .next (s.put (if e.params.kind = k then body e.begin else e.illegal)) := by
  simp [State.command, h]

/-- The only other outcome of a command: there is no current engine. -/
theorem command_cases {s : State} {k : Kind} {body : Engine → Engine} {t : State} (h : s.command k body = .next t) :
    ∃ e, s.current = some e ∧ t = s.put (if e.params.kind = k then body e.begin else e.illegal) := by
  unfold State.command at h
  split at h
  · cases h
  · rename_i e he
    exact ⟨e, he, by simpa using h.symm⟩

theorem whenReady_of_ready {e : Engine} (h : e.ready = true) (body : Engine → Engine) : e.whenReady body = body e := by
  simp [Engine.whenReady, h]

theorem whenReady_of_not_ready {e : Engine} (h : e.ready = false) (body : Engine → Engine) :
    e.whenReady body = e.finish .notReady := by
  simp [Engine.whenReady, h]

end Sys2Proof.Machine
end

