-- ==== Sys2Proof/Laws/Trace.lean ====
section
/-! SUPPORT. Every sequencing procedure of the commands is the emission of a list of events: each procedure's list is said once
here, then what emitting a list does to the engine. -/

namespace Sys2Proof.Machine

/-- Emit a list of events, the first event first. -/
def Engine.emits : List Event → Engine → Engine
  | [], e => e
  | ev :: evs, e => Engine.emits evs (e.emit ev)

/-- The line levels after a list of events. -/
def Engine.driveAll : List Event → Engine → Engine
  | [], e => e
  | ev :: evs, e => Engine.driveAll evs (e.drive ev)

@[simp] theorem emits_nil (e : Engine) : e.emits [] = e := rfl
@[simp] theorem emits_cons (ev : Event) (evs : List Event) (e : Engine) :
    e.emits (ev :: evs) = (e.emit ev).emits evs := rfl

theorem emits_append (xs ys : List Event) : ∀ e : Engine, e.emits (xs ++ ys) = (e.emits xs).emits ys := by
  induction xs with
  | nil => intro e; rfl
  | cons x xs ih => intro e; exact ih (e.emit x)

@[simp] theorem emits_params (evs : List Event) : ∀ e : Engine, (e.emits evs).params = e.params := by
  induction evs with
  | nil => intro e; rfl
  | cons x xs ih => intro e; simp [ih]

/-! The procedures as lists of events. -/

theorem loadPulse_eq (e : Engine) : e.loadPulse = e.emits (loadEvents e.params.delayUnit) := rfl

theorem clockPulse_eq (e : Engine) : e.clockPulse = e.emits (clockEvents e.params.delayUnit) := rfl

theorem latchPulse_eq (e : Engine) : e.latchPulse = e.emits (latchEvents e.params.delayUnit) := rfl

theorem shiftStep_eq (b : Bool) (e : Engine) : e.shiftStep b = e.emits (shiftEvents e.params.delayUnit b) := rfl

theorem sampleStep_eq (e : Engine) :
    e.sampleStep = (e.dataLine, e.emits (sampleEvents e.params.delayUnit e.dataLine)) := rfl

theorem clockPulses_eq (p : Nat) : ∀ e : Engine,
    Engine.clockPulses p e = e.emits (List.replicate p (clockEvents e.params.delayUnit)).flatten := by
  induction p with
  | zero => intro e; rfl
  | succ p ih =>
    intro e
    rw [Engine.clockPulses, ih, clockPulse_eq, emits_params, List.replicate_succ, List.flatten_cons, emits_append]

theorem shiftOut_eq (bs : List Bool) : ∀ e : Engine,
    Engine.shiftOut bs e = e.emits (bs.flatMap (shiftEvents e.params.delayUnit)) := by
  induction bs with
  | nil => intro e; rfl
  | cons b bs ih =>
    intro e
    rw [Engine.shiftOut, ih, shiftStep_eq, emits_params, List.flatMap_cons, emits_append]

/-- The loops of R143 put the bits of the formula of R143 on the data line. -/
theorem outBits_eq (n : Nat) (cache : List Byte) : outBits n cache = shiftedBits n cache := by
  induction n with
  | zero => rfl
  | succ n ih =>
    have h8 : List.range (8 * (n + 1)) = List.range 8 ++ (List.range (8 * n)).map (8 + ·) := by
      rw [← List.range_add]; congr 1; omega
    have hb : outBits (n + 1) cache = msbFirst (arrayByte cache n) ++ outBits n cache := by
      simp [outBits, List.range_succ]
    rw [hb, ih]
    unfold shiftedBits
    rw [h8, List.map_append, List.map_map]
    refine congrArg₂ (· ++ ·) (by rfl) ?_
    · apply List.map_congr_left
      intro t _
      have h1 : (8 + t) / 8 = t / 8 + 1 := by omega
      have h2 : (8 + t) % 8 = t % 8 := by omega
      simp only [Function.comp_apply, h1, h2]
      congr 2
      omega

theorem shiftedBits_length (n : Nat) (cache : List Byte) : (shiftedBits n cache).length = 8 * n := by
  simp [shiftedBits]

theorem fullWrite_eq (e : Engine) :
    e.fullWrite = e.emits (fullWriteEvents e.params.delayUnit e.params.n e.cache) := by
  rw [Engine.fullWrite, latchPulse_eq, shiftOut_eq, emits_params, ← emits_append, outBits_eq]
  rfl

/-! What emitting a list does, field by field. -/

section EmitsFields

@[simp] theorem emits_ready (evs : List Event) : ∀ e : Engine, (e.emits evs).ready = e.ready := by
  induction evs with
  | nil => intro e; rfl
  | cons x xs ih => intro e; simp [ih]

@[simp] theorem emits_status (evs : List Event) : ∀ e : Engine, (e.emits evs).status = e.status := by
  induction evs with
  | nil => intro e; rfl
  | cons x xs ih => intro e; simp [ih]

@[simp] theorem emits_rdata (evs : List Event) : ∀ e : Engine, (e.emits evs).rdata = e.rdata := by
  induction evs with
  | nil => intro e; rfl
  | cons x xs ih => intro e; simp [ih]

@[simp] theorem emits_xbuf (evs : List Event) : ∀ e : Engine, (e.emits evs).xbuf = e.xbuf := by
  induction evs with
  | nil => intro e; rfl
  | cons x xs ih => intro e; simp [ih]

@[simp] theorem emits_cache (evs : List Event) : ∀ e : Engine, (e.emits evs).cache = e.cache := by
  induction evs with
  | nil => intro e; rfl
  | cons x xs ih => intro e; simp [ih]

@[simp] theorem emits_trace (evs : List Event) : ∀ e : Engine, (e.emits evs).trace = e.trace ++ evs := by
  induction evs with
  | nil => intro e; simp
  | cons x xs ih => intro e; simp [ih]

@[simp] theorem emits_fresh (evs : List Event) : ∀ e : Engine, (e.emits evs).fresh = e.fresh + evs.length := by
  induction evs with
  | nil => intro e; rfl
  | cons x xs ih => intro e; simp [ih]; omega

end EmitsFields

/-- Once for all: emitting a list changes the line levels, the trace, the count of free values and what is on the pins, and
nothing else. -/
theorem emits_frame (evs : List Event) (e : Engine) :
    e.emits evs = { e with
      loadQ := (e.emits evs).loadQ
      clkQ := (e.emits evs).clkQ
      dataQ := (e.emits evs).dataQ
      latchQ := (e.emits evs).latchQ
      oeQ := (e.emits evs).oeQ
      trace := e.trace ++ evs
      fresh := (e.emits evs).fresh
      attached := (e.emits evs).attached } := by
  rw [← emits_trace]
  conv => lhs; rw [show e.emits evs = ⟨(e.emits evs).params, (e.emits evs).ready, (e.emits evs).status, (e.emits evs).rdata,
    (e.emits evs).xbuf, (e.emits evs).cache, (e.emits evs).loadQ, (e.emits evs).clkQ, (e.emits evs).dataQ,
    (e.emits evs).latchQ, (e.emits evs).oeQ, (e.emits evs).trace, (e.emits evs).fresh, (e.emits evs).attached⟩ from rfl]
  rw [emits_params, emits_ready, emits_status, emits_rdata, emits_xbuf, emits_cache]

/-- A list of events leaves the levels that driving its lines one after the other leaves. -/
theorem emits_levels (evs : List Event) : ∀ e f : Engine,
    e.loadQ = f.loadQ → e.clkQ = f.clkQ → e.dataQ = f.dataQ → e.latchQ = f.latchQ → e.oeQ = f.oeQ →
    (e.emits evs).loadQ = (f.driveAll evs).loadQ ∧ (e.emits evs).clkQ = (f.driveAll evs).clkQ ∧
    (e.emits evs).dataQ = (f.driveAll evs).dataQ ∧ (e.emits evs).latchQ = (f.driveAll evs).latchQ ∧
    (e.emits evs).oeQ = (f.driveAll evs).oeQ := by
  induction evs with
  | nil => intro e f h1 h2 h3 h4 h5; exact ⟨h1, h2, h3, h4, h5⟩
  | cons x xs ih =>
    intro e f h1 h2 h3 h4 h5
    apply ih <;> cases x <;> simp [Engine.drive, *]

/-! The levels after the procedures whose lists grow with an operand. -/

theorem emits_flatMap_levels {f : Bool → List Event} {g : Engine → Level} {v : Bool → Level}
    (hstep : ∀ (b : Bool) (e : Engine), g (e.emits (f b)) = v b) (bs : List Bool) :
    ∀ e : Engine, g (e.emits (bs.flatMap f)) = match bs.getLast? with
      | none => g e
      | some b => v b := by
  induction bs with
  | nil => intro e; rfl
  | cons b bs ih =>
    intro e
    rw [List.flatMap_cons, emits_append, ih]
    cases bs with
    | nil => simp [hstep]
    | cons c cs => simp [List.getLast?_cons_cons]; rfl

theorem emits_flatMap_same {f : Bool → List Event} {α : Type} {g : Engine → α}
    (hstep : ∀ (b : Bool) (e : Engine), g (e.emits (f b)) = g e) (bs : List Bool) :
    ∀ e : Engine, g (e.emits (bs.flatMap f)) = g e := by
  induction bs with
  | nil => intro e; rfl
  | cons b bs ih => intro e; rw [List.flatMap_cons, emits_append, ih, hstep]

/-! Chain reads (R103, R104): the samples taken, and the bytes they make. -/

/-- The values of the next `m` sample steps. -/
def Engine.nextSamples : Nat → Engine → List Bool
  | 0, _ => []
  | m + 1, e => e.dataLine :: Engine.nextSamples m e.sampleStep.2

@[simp] theorem nextSamples_length (m : Nat) : ∀ e : Engine, (e.nextSamples m).length = m := by
  induction m with
  | zero => intro e; rfl
  | succ m ih => intro e; simp [Engine.nextSamples, ih]

/-- The engine after `m` sample steps. -/
def Engine.afterSamples (m : Nat) (e : Engine) : Engine :=
  e.emits ((e.nextSamples m).flatMap (sampleEvents e.params.delayUnit))

theorem afterSamples_succ (m : Nat) (e : Engine) : e.afterSamples (m + 1) = e.sampleStep.2.afterSamples m := by
  unfold Engine.afterSamples
  rw [Engine.nextSamples, List.flatMap_cons, emits_append, sampleStep_eq, emits_params]

theorem nextSamples_add (a b : Nat) : ∀ e : Engine,
    e.nextSamples (a + b) = e.nextSamples a ++ (e.afterSamples a).nextSamples b := by
  induction a with
  | zero => intro e; simp [Engine.nextSamples, Engine.afterSamples]
  | succ a ih =>
    intro e
    rw [show a + 1 + b = (a + b) + 1 by omega, Engine.nextSamples, ih,
      Engine.nextSamples, afterSamples_succ]
    rfl

theorem afterSamples_add (a b : Nat) : ∀ e : Engine, e.afterSamples (a + b) = (e.afterSamples a).afterSamples b := by
  induction a with
  | zero => intro e; simp [Engine.nextSamples, Engine.afterSamples]
  | succ a ih =>
    intro e
    rw [show a + 1 + b = (a + b) + 1 by omega, afterSamples_succ, afterSamples_succ, ih]

/-- The inner loop of R104 as a fold over the samples. -/
def fillBits : Nat → Byte → List Bool → Byte
  | 0, b, _ => b
  | _ + 1, b, [] => b
  | m + 1, b, d :: ds => fillBits m (setByteBit b m d) ds

theorem readBits_eq (m : Nat) : ∀ (b : Byte) (e : Engine),
    Engine.readBits m b e = (fillBits m b (e.nextSamples m), e.afterSamples m) := by
  induction m with
  | zero => intro b e; rfl
  | succ m ih =>
    intro b e
    rw [Engine.readBits, ih, Engine.nextSamples, fillBits, afterSamples_succ, sampleStep_eq]

/-- Sample `m - 1 - j` of the byte is its bit `j`; the bits above are as they were. -/
theorem byteBit_fillBits (m : Nat) (hm : m ≤ 8) : ∀ (b : Byte) (ds : List Bool) (j : Nat), ds.length = m →
    byteBit (fillBits m b ds) j = if j < m then ds.getD (m - 1 - j) false else byteBit b j := by
  induction m with
  | zero => intro b ds j _; simp [fillBits]
  | succ m ih =>
    intro b ds j hlen
    cases ds with
    | nil => simp at hlen
    | cons d ds =>
      have hl : ds.length = m := by simpa using hlen
      rw [fillBits, ih (by omega) _ _ _ hl]
      by_cases h1 : j < m
      · obtain ⟨x, hx⟩ : ∃ x, m - j = x + 1 := ⟨m - j - 1, by omega⟩
        have h2 : m - 1 - j = x := by omega
        have h3 : j < m + 1 := by omega
        simp [h1, h3, h2, hx]
      · rw [if_neg h1]
        by_cases h2 : j = m
        · subst h2
          rw [byteBit_setByteBit_self _ (by omega)]
          simp
        · rw [byteBit_setByteBit_other _ h2, if_neg (by omega)]

/-- The bytes of a chain read, from its samples in order (R104). -/
def packBytes : Nat → List Bool → List Byte
  | 0, _ => []
  | k + 1, ds => fillBits 8 0x00#8 (ds.take 8) :: packBytes k (ds.drop 8)

@[simp] theorem packBytes_length (k : Nat) : ∀ ds : List Bool, (packBytes k ds).length = k := by
  induction k with
  | zero => intro ds; rfl
  | succ k ih => intro ds; simp [packBytes, ih]

/-- The chain read, said once: its bytes and the engine after it. -/
theorem readChain_eq (k : Nat) : ∀ e : Engine,
    Engine.readChain k e = (packBytes k (e.nextSamples (8 * k)), e.afterSamples (8 * k)) := by
  induction k with
  | zero => intro e; simp [Engine.readChain, packBytes, Engine.afterSamples, Engine.nextSamples]
  | succ k ih =>
    intro e
    have h8 : 8 * (k + 1) = 8 + 8 * k := by omega
    rw [Engine.readChain, readBits_eq, h8, nextSamples_add, afterSamples_add, packBytes]
    simp [ih]

/-- Bit index i of the bytes is the sample at position pos(i) (20_memory.md R57, R104). -/
theorem arrayBit_packBytes (k : Nat) : ∀ (ds : List Bool) (i : Nat), ds.length = 8 * k → i < 8 * k →
    arrayBit (packBytes k ds) i = ds.getD (pos i) false := by
  induction k with
  | zero => intro ds i _ hi; omega
  | succ k ih =>
    intro ds i hlen hi
    unfold arrayBit
    by_cases h : i < 8
    · have hc : chipOf i = 0 := by unfold chipOf; omega
      have hb : bitOf i = i := by unfold bitOf; omega
      have hp : pos i = 7 - i := by unfold pos; omega
      rw [hc, hb, hp, packBytes]
      have hl : (ds.take 8).length = 8 := by rw [List.length_take]; omega
      have := byteBit_fillBits 8 (by omega) 0x00#8 (ds.take 8) i hl
      rw [if_pos h] at this
      simp only [arrayByte, List.getD_cons_zero]
      rw [this]
      have h8 : 8 - 1 - i < 8 := by omega
      simp [h8]
    · obtain ⟨x, rfl⟩ : ∃ x, i = 8 + x := ⟨i - 8, by omega⟩
      have hc : chipOf (8 + x) = chipOf x + 1 := by unfold chipOf; omega
      have hb : bitOf (8 + x) = bitOf x := by unfold bitOf; omega
      have hp : pos (8 + x) = 8 + pos x := by unfold pos; omega
      have := ih (ds.drop 8) x (by rw [List.length_drop]; omega) (by omega)
      rw [hc, hb, hp, packBytes]
      simp only [arrayByte, List.getD_cons_succ]
      rw [arrayBit, arrayByte] at this
      rw [this]
      simp

theorem memWriteAll_eq (bs : List Byte) : ∀ (pre : List Byte) (e : Engine), e.xbuf = pre ++ List.drop pre.length e.xbuf →
    e.xbuf.length = pre.length + bs.length →
    Engine.memWriteAll pre.length bs e = { e with xbuf := pre ++ bs } := by
  induction bs with
  | nil =>
    intro pre e h hl
    have : List.drop pre.length e.xbuf = [] := List.drop_eq_nil_of_le (by simp at hl; omega)
    rw [this] at h
    simp only [Engine.memWriteAll]
    rw [← h]
  | cons b bs ih =>
    intro pre e h hl
    have hlen : pre.length < e.xbuf.length := by simp at hl; omega
    have hset : (e.memWrite pre.length b).xbuf = (pre ++ [b]) ++ List.drop (pre.length + 1) e.xbuf := by
      simp only [Engine.memWrite, setArrayByte]
      rw [List.set_eq_take_append_cons_drop, if_pos hlen]
      have : List.take pre.length e.xbuf = pre := by rw [h]; simp
      rw [this]; simp
    have h1 := ih (pre ++ [b]) (e.memWrite pre.length b) (by
      rw [hset, List.length_append, List.length_singleton]
      congr 1
      rw [← hset]
      rw [hset]
      simp) (by
      simp [Engine.memWrite, setArrayByte] at hl ⊢
      omega)
    rw [List.length_append, List.length_singleton] at h1
    rw [Engine.memWriteAll, h1]
    simp [Engine.memWrite]

/-- Storing N bytes from byte 0 on makes XBUF those bytes (R114). -/
theorem memWriteAll_zero {bs : List Byte} {e : Engine} (h : e.xbuf.length = bs.length) :
    Engine.memWriteAll 0 bs e = { e with xbuf := bs } := by
  have := memWriteAll_eq bs [] e (by simp) (by simp [h])
  simpa using this

end Sys2Proof.Machine
end

