-- ==== Sys2Proof/Laws/Chips.lean ====
section
/-! SUPPORT. What is on the pins through the sequencing procedures: a data line gives its draws in order (00_scope.md R14); the
reference input chip gives its captured inputs in sample order (60_exceptions.md R216); the reference output chip ends with the
bits that were shifted (R217, R218). -/

namespace Sys2Proof.Machine

/-! A data line under no law. -/

theorem line_clockPulse {e : Engine} {ds : List Bool} (h : e.attached = .line ds) :
    e.clockPulse.attached = .line ds := by
  simp [Engine.clockPulse, Engine.wait, Engine.attachedAfter, h]

theorem line_loadPulse {e : Engine} {ds : List Bool} (h : e.attached = .line ds) :
    e.loadPulse.attached = .line ds := by
  simp [Engine.loadPulse, Engine.wait, Engine.attachedAfter, h]

theorem line_sampleStep {e : Engine} {ds : List Bool} (h : e.attached = .line ds) :
    e.sampleStep.2.attached = .line ds.tail := by
  apply line_clockPulse
  simp [Engine.sample, Engine.attachedAfter, h]

/-- The samples of a data line are its next draws, in order. -/
theorem line_nextSamples (m : Nat) : ∀ {e : Engine} {ds : List Bool}, e.attached = .line ds → m ≤ ds.length →
    e.nextSamples m = ds.take m ∧ (e.afterSamples m).attached = .line (ds.drop m) := by
  induction m with
  | zero => intro e ds h _; exact ⟨by simp [Engine.nextSamples], by simpa [Engine.afterSamples, Engine.nextSamples] using h⟩
  | succ m ih =>
    intro e ds h hm
    cases ds with
    | nil => simp at hm
    | cons d ds =>
      have hd : e.dataLine = d := by simp [Engine.dataLine, h]
      obtain ⟨h1, h2⟩ := ih (line_sampleStep h) (by simpa using hm)
      exact ⟨by simp [Engine.nextSamples, hd, h1], by rw [afterSamples_succ, h2]; simp⟩

/-! The reference input chip. -/

theorem inputChip_loadPulse {e : Engine} {c : InputChip} (h : e.attached = .inputChip c) :
    e.loadPulse.attached = .inputChip { c with shift := c.capture e.params.n } ∧ e.loadPulse.loadQ = .low := by
  simp [Engine.loadPulse, Engine.wait, Engine.attachedAfter, h, InputChip.react, Engine.drive, Level.ofBool]

theorem inputChip_clockPulse {e : Engine} {c : InputChip} (h : e.attached = .inputChip c) (hl : e.loadQ = .low) :
    e.clockPulse.loadQ = .low ∧
    ∃ si, e.clockPulse.attached = .inputChip { c with shift := c.shift.tail ++ [si], clk := .high } := by
  simp [Engine.clockPulse, Engine.wait, Engine.attachedAfter, h, InputChip.react, Engine.drive, Level.ofBool, hl]

theorem inputChip_sampleStep {e : Engine} {c : InputChip} (h : e.attached = .inputChip c) (hl : e.loadQ = .low) :
    e.sampleStep.2.loadQ = .low ∧
    ∃ si, e.sampleStep.2.attached = .inputChip { c with shift := c.shift.tail ++ [si], clk := .high } := by
  apply inputChip_clockPulse
  · simp [Engine.sample, Engine.attachedAfter, h, InputChip.react]
  · simpa [Engine.sample, Engine.drive] using hl

theorem take_tail_append {α : Type} {l : List α} {m : Nat} (h : m + 1 ≤ l.length) (x : α) :
    (l.tail ++ [x]).take m = l.tail.take m := by
  rw [List.take_append_of_le_length]
  rw [List.length_tail]; omega

/-- The samples of the reference input chip are its shift stage, in order. -/
theorem inputChip_nextSamples (m : Nat) : ∀ {e : Engine} {c : InputChip}, e.attached = .inputChip c → e.loadQ = .low →
    m ≤ c.shift.length → e.nextSamples m = c.shift.take m := by
  induction m with
  | zero => intro e c _ _ _; simp [Engine.nextSamples]
  | succ m ih =>
    intro e c h hl hm
    obtain ⟨h1, si, h2⟩ := inputChip_sampleStep h hl
    have := ih h2 h1 (by simp; omega)
    rw [Engine.nextSamples, this]
    simp only [take_tail_append hm]
    cases hc : c.shift with
    | nil => simp [hc] at hm
    | cons d ds => simp [Engine.dataLine, h, hc]

/-- The samples of a whole chain read of the reference input chip are its captured inputs (R216). -/
theorem inputChip_samples {e : Engine} {c : InputChip} (h : e.attached = .inputChip c) :
    e.loadPulse.nextSamples (8 * e.params.n) = c.capture e.params.n := by
  obtain ⟨h1, h2⟩ := inputChip_loadPulse h
  rw [inputChip_nextSamples _ h1 h2 (by simp [InputChip.capture])]
  exact List.take_of_length_le (by simp [InputChip.capture])

/-- After `p` clock pulses the data line carries place `p` of the shift stage. -/
theorem inputChip_clockPulses (p : Nat) : ∀ {e : Engine} {c : InputChip}, e.attached = .inputChip c → e.loadQ = .low →
    p < c.shift.length → (Engine.clockPulses p e).dataLine = c.shift.getD p false := by
  induction p with
  | zero =>
    intro e c h _ hp
    cases hc : c.shift with
    | nil => simp [hc] at hp
    | cons d ds => simp [Engine.clockPulses, Engine.dataLine, h, hc]
  | succ p ih =>
    intro e c h hl hp
    obtain ⟨h1, si, h2⟩ := inputChip_clockPulse h hl
    rw [Engine.clockPulses, ih h2 h1 (by simp; omega)]
    have : p < c.shift.tail.length := by rw [List.length_tail]; omega
    simp [List.getElem?_append_left this]

theorem capture_length (n : Nat) (c : InputChip) : (c.capture n).length = 8 * n := by
  simp [InputChip.capture]

theorem pos_lt {n i : Nat} (h : i < 8 * n) : pos i < 8 * n := by unfold pos; omega

theorem pos_pos (i : Nat) : pos (pos i) = i := by unfold pos; omega

/-- The captured bit at the sample position of an index is the input of that index (R216). -/
theorem capture_pos {n i : Nat} (c : InputChip) (h : i < 8 * n) :
    (c.capture n).getD (pos i) false = c.inputs.getD i false := by
  simp [InputChip.capture, pos_lt h, pos_pos]

/-! The reference output chip. -/

theorem outputChip_shiftStep {e : Engine} {c : OutputChip} (h : e.attached = .outputChip c) (b : Bool) :
    (e.shiftStep b).attached = .outputChip { c with shift := b :: c.shift.dropLast } := by
  cases b <;>
  simp [Engine.shiftStep, Engine.clockPulse, Engine.wait, Engine.attachedAfter, h, OutputChip.react, Engine.drive,
    Level.ofBool, Level.bit]

/-- Shifting bits moves them into the shift stage, the last bit at place 0; the storage stage stays (R217, R218). -/
theorem outputChip_shiftOut (bs : List Bool) : ∀ {e : Engine} {c : OutputChip}, e.attached = .outputChip c →
    bs.length ≤ c.shift.length →
    (Engine.shiftOut bs e).attached =
      .outputChip { c with shift := bs.reverse ++ c.shift.take (c.shift.length - bs.length) } := by
  induction bs with
  | nil => intro e c h _; simpa [Engine.shiftOut] using h
  | cons b bs ih =>
    intro e c h hl
    have hl' : bs.length + 1 ≤ c.shift.length := hl
    rw [Engine.shiftOut, ih (outputChip_shiftStep h b) (by simp; omega)]
    have h1 : (b :: c.shift.dropLast).length - bs.length = (c.shift.length - (bs.length + 1)) + 1 := by simp; omega
    rw [show ({ c with shift := b :: c.shift.dropLast } : OutputChip).shift = b :: c.shift.dropLast from rfl, h1]
    simp only [List.take_succ_cons, List.reverse_cons, List.append_assoc, List.singleton_append, List.length_cons]
    rw [List.dropLast_eq_take, List.take_take, Nat.min_eq_left (by omega)]

theorem outputChip_latchPulse {e : Engine} {c : OutputChip} (h : e.attached = .outputChip c) (hl : e.latchQ = .low) :
    e.latchPulse.attached = .outputChip { c with storage := c.shift } := by
  simp [Engine.latchPulse, Engine.wait, Engine.attachedAfter, h, OutputChip.react, hl]

theorem shiftStep_latchQ (b : Bool) (e : Engine) : (e.shiftStep b).latchQ = e.latchQ := by
  simp [Engine.shiftStep, Engine.clockPulse, Engine.wait, Engine.drive]

theorem shiftOut_latchQ (bs : List Bool) : ∀ e : Engine, (Engine.shiftOut bs e).latchQ = e.latchQ := by
  induction bs with
  | nil => intro e; rfl
  | cons b bs ih => intro e; rw [Engine.shiftOut, ih, shiftStep_latchQ]

theorem shiftOut_params (bs : List Bool) (e : Engine) : (Engine.shiftOut bs e).params = e.params := by
  rw [shiftOut_eq, emits_params]

/-- The bits of a full-chain write, last first, are the bits of CACHE by index (20_memory.md R58). -/
theorem shiftedBits_reverse (n : Nat) (cache : List Byte) :
    (shiftedBits n cache).reverse = (List.range (8 * n)).map (arrayBit cache) := by
  apply List.ext_getElem
  · simp [shiftedBits]
  · intro i h1 h2
    have hi : i < 8 * n := by simpa using h2
    have e1 : n - 1 - (8 * n - 1 - i) / 8 = i / 8 := by omega
    have e2 : 7 - (8 * n - 1 - i) % 8 = i % 8 := by omega
    simp [shiftedBits, arrayBit, chipOf, bitOf, e1, e2]

/-- A full-chain write leaves the bits of CACHE in both stages of the reference output chip (R217, R218, R144). -/
theorem outputChip_fullWrite {e : Engine} {c : OutputChip} (h : e.attached = .outputChip c)
    (hs : c.shift.length = 8 * e.params.n) (hl : e.latchQ = .low) :
    e.fullWrite.attached = .outputChip
      { shift := (List.range (8 * e.params.n)).map (arrayBit e.cache)
        storage := (List.range (8 * e.params.n)).map (arrayBit e.cache) } := by
  have hb : (outBits e.params.n e.cache).length = 8 * e.params.n := by rw [outBits_eq, shiftedBits_length]
  have h1 := outputChip_shiftOut (outBits e.params.n e.cache) h (by omega)
  rw [hb, hs, Nat.sub_self, List.take_zero, List.append_nil, outBits_eq, shiftedBits_reverse] at h1
  rw [← outBits_eq] at h1
  rw [Engine.fullWrite, outputChip_latchPulse h1 (by rw [shiftOut_latchQ, hl])]

end Sys2Proof.Machine
end

