-- ==== Sys2Proof/Laws/Exec.lean ====
section
/-! SUPPORT. exec said once for all commands: on the current engine it always answers a next state, with one of four engines
(BAD_COMMAND, NOT_READY, or the command's body); and each body is one of two shapes: an early completion, or a list of events
followed by OK. -/

namespace Sys2Proof.Machine

/-- The body of a command (R110 to R115, R150 to R157), once the checks of R100 and R140 passed. -/
def bodyOf : Instr → Engine → Engine
  | .inInit => Engine.inInit
  | .inLoad => Engine.inLoad
  | .inReadbyte => Engine.inReadbyte
  | .inReadword => Engine.inReadword
  | .inReadall len => Engine.inReadall len
  | .inReadbit idx => Engine.inReadbit idx
  | .outInit => Engine.outInit
  | .outEnable => Engine.outEnable
  | .outDisable => Engine.outDisable
  | .outWritebyte data => Engine.outWritebyte data
  | .outWriteword data => Engine.outWriteword data
  | .outWriteall len => Engine.outWriteall len
  | .outWritebit idx v => Engine.outWritebit idx v
  | .outDeinit => Engine.outDeinit

/-- The engine a command leaves (R100, R140, 60_exceptions.md R208). -/
def resultOf (i : Instr) (e : Engine) : Engine :=
  if e.params.kind = i.kind then
    if i.isInit = true ∨ e.ready = true then bodyOf i e.begin else e.begin.finish .notReady
  else e.illegal

/-- exec always answers a next state on the current engine. -/
theorem exec_eq {s : State} {e : Engine} (h : s.current = some e) (i : Instr) : exec i s = .next (s.put (resultOf i e)) := by
  cases i <;> cases hk : e.params.kind <;> cases hr : e.ready <;>
    simp [exec, execInInit, execInLoad, execInReadbyte, execInReadword, execInReadall, execInReadbit, execOutInit,
      execOutEnable, execOutDisable, execOutWritebyte, execOutWriteword, execOutWriteall, execOutWritebit, execOutDeinit,
      command_of_current h, resultOf, bodyOf, Instr.kind, Instr.isInit, Engine.whenReady, hk, hr]

/-- The only way to a next state. -/
theorem exec_next {i : Instr} {s t : State} (h : exec i s = .next t) :
    ∃ e, s.current = some e ∧ t = s.put (resultOf i e) := by
  cases hc : s.current with
  | none =>
    exfalso
    revert h
    cases i <;>
      simp [exec, execInInit, execInLoad, execInReadbyte, execInReadword, execInReadall, execInReadbit, execOutInit,
        execOutEnable, execOutDisable, execOutWritebyte, execOutWriteword, execOutWriteall, execOutWritebit, execOutDeinit,
        State.command, hc]
  | some e => exact ⟨e, rfl, by rw [exec_eq hc] at h; simpa using h.symm⟩

theorem resultOf_foreign {i : Instr} {e : Engine} (h : e.params.kind ≠ i.kind) : resultOf i e = e.illegal := by
  simp [resultOf, h]

theorem resultOf_not_ready {i : Instr} {e : Engine} (hk : e.params.kind = i.kind) (hi : i.isInit = false)
    (hr : e.ready = false) : resultOf i e = e.begin.finish .notReady := by
  simp [resultOf, hk, hi, hr]

theorem resultOf_body {i : Instr} {e : Engine} (hk : e.params.kind = i.kind) (h : i.isInit = true ∨ e.ready = true) :
    resultOf i e = bodyOf i e.begin := by
  simp only [resultOf, if_pos hk, if_pos h]

end Sys2Proof.Machine
end

