-- ==== Sys2Proof/Laws/Bodies.lean ====
section
/-! SUPPORT. What each command's body leaves (40_input_chain.md R110 to R115, 41_output_chain.md R150 to R157), said once: the line
levels after the sequencing procedures (70_reset_and_hazards.md R250), then one equation for each body. -/

namespace Sys2Proof.Machine

/-! Line levels. -/

theorem clockEvents_levels (e : Engine) (u : Nat) :
    (e.emits (clockEvents u)).loadQ = e.loadQ ∧ (e.emits (clockEvents u)).clkQ = .high ∧
    (e.emits (clockEvents u)).dataQ = e.dataQ ∧ (e.emits (clockEvents u)).latchQ = e.latchQ ∧
    (e.emits (clockEvents u)).oeQ = e.oeQ := by
  simp [clockEvents, Engine.drive, Level.ofBool]

theorem loadEvents_levels (e : Engine) (u : Nat) :
    (e.emits (loadEvents u)).loadQ = .low ∧ (e.emits (loadEvents u)).clkQ = e.clkQ ∧
    (e.emits (loadEvents u)).dataQ = e.dataQ ∧ (e.emits (loadEvents u)).latchQ = e.latchQ ∧
    (e.emits (loadEvents u)).oeQ = e.oeQ := by
  simp [loadEvents, Engine.drive, Level.ofBool]

theorem latchEvents_levels (e : Engine) (u : Nat) :
    (e.emits (latchEvents u)).loadQ = e.loadQ ∧ (e.emits (latchEvents u)).clkQ = e.clkQ ∧
    (e.emits (latchEvents u)).dataQ = e.dataQ ∧ (e.emits (latchEvents u)).latchQ = .low ∧
    (e.emits (latchEvents u)).oeQ = e.oeQ := by
  simp [latchEvents, Engine.drive, Level.ofBool]

theorem sampleEvents_levels (e : Engine) (u : Nat) (d : Bool) :
    (e.emits (sampleEvents u d)).loadQ = e.loadQ ∧ (e.emits (sampleEvents u d)).clkQ = .high ∧
    (e.emits (sampleEvents u d)).dataQ = e.dataQ ∧ (e.emits (sampleEvents u d)).latchQ = e.latchQ ∧
    (e.emits (sampleEvents u d)).oeQ = e.oeQ := by
  simp [sampleEvents, clockEvents, Engine.drive, Level.ofBool]

theorem shiftEvents_levels (e : Engine) (u : Nat) (b : Bool) :
    (e.emits (shiftEvents u b)).loadQ = e.loadQ ∧ (e.emits (shiftEvents u b)).clkQ = .high ∧
    (e.emits (shiftEvents u b)).dataQ = Level.ofBool b ∧ (e.emits (shiftEvents u b)).latchQ = e.latchQ ∧
    (e.emits (shiftEvents u b)).oeQ = e.oeQ := by
  simp [shiftEvents, clockEvents, Engine.drive, Level.ofBool]

/-- The events of a load pulse and sample steps drive the load and the clock line only. -/
theorem emits_read_levels (e : Engine) (u : Nat) (ds : List Bool) :
    (e.emits (loadEvents u ++ ds.flatMap (sampleEvents u))).loadQ = .low ∧
    (e.emits (loadEvents u ++ ds.flatMap (sampleEvents u))).clkQ = (if ds = [] then e.clkQ else .high) ∧
    (e.emits (loadEvents u ++ ds.flatMap (sampleEvents u))).dataQ = e.dataQ ∧
    (e.emits (loadEvents u ++ ds.flatMap (sampleEvents u))).latchQ = e.latchQ ∧
    (e.emits (loadEvents u ++ ds.flatMap (sampleEvents u))).oeQ = e.oeQ := by
  obtain ⟨l1, l2, l3, l4, l5⟩ := loadEvents_levels e u
  rw [emits_append]
  refine ⟨?_, ?_, ?_, ?_, ?_⟩
  · rw [emits_flatMap_same (g := Engine.loadQ) (fun b e => (sampleEvents_levels e u b).1), l1]
  · rw [emits_flatMap_levels (g := Engine.clkQ) (v := fun _ => .high) (fun b e => (sampleEvents_levels e u b).2.1)]
    cases ds with
    | nil => simpa using l2
    | cons d ds => rw [if_neg (List.cons_ne_nil _ _), List.getLast?_eq_getLast_of_ne_nil (List.cons_ne_nil _ _)]
  · rw [emits_flatMap_same (g := Engine.dataQ) (fun b e => (sampleEvents_levels e u b).2.2.1), l3]
  · rw [emits_flatMap_same (g := Engine.latchQ) (fun b e => (sampleEvents_levels e u b).2.2.2.1), l4]
  · rw [emits_flatMap_same (g := Engine.oeQ) (fun b e => (sampleEvents_levels e u b).2.2.2.2), l5]

theorem shiftedBits_getLast {n : Nat} (hn : 1 ≤ n) (cache : List Byte) :
    (shiftedBits n cache).getLast? = some (byteBit (arrayByte cache 0) 0) := by
  rw [List.getLast?_eq_getElem?, shiftedBits_length]
  have h1 : n - 1 - (8 * n - 1) / 8 = 0 := by omega
  have h2 : 7 - (8 * n - 1) % 8 = 0 := by omega
  have h3 : 8 * n - 1 < 8 * n := by omega
  simp [shiftedBits, h1, h2, h3]

/-- A full-chain write drives the data, clock and latch lines: DATA_Q ends as bit 0 of CACHE[0], the last bit shifted (R143). -/
theorem emits_write_levels (e : Engine) (u n : Nat) (hn : 1 ≤ n) (cache : List Byte) :
    (e.emits (fullWriteEvents u n cache)).loadQ = e.loadQ ∧
    (e.emits (fullWriteEvents u n cache)).clkQ = .high ∧
    (e.emits (fullWriteEvents u n cache)).dataQ = Level.ofBool (byteBit (arrayByte cache 0) 0) ∧
    (e.emits (fullWriteEvents u n cache)).latchQ = .low ∧
    (e.emits (fullWriteEvents u n cache)).oeQ = e.oeQ := by
  have hlast := shiftedBits_getLast hn cache
  unfold fullWriteEvents
  rw [emits_append]
  obtain ⟨l1, l2, l3, l4, l5⟩ := latchEvents_levels (e.emits ((shiftedBits n cache).flatMap (shiftEvents u))) u
  refine ⟨?_, ?_, ?_, l4, ?_⟩
  · rw [l1, emits_flatMap_same (g := Engine.loadQ) (fun b e => (shiftEvents_levels e u b).1)]
  · rw [l2, emits_flatMap_levels (g := Engine.clkQ) (v := fun _ => .high) (fun b e => (shiftEvents_levels e u b).2.1), hlast]
  · rw [l3, emits_flatMap_levels (g := Engine.dataQ) (v := Level.ofBool) (fun b e => (shiftEvents_levels e u b).2.2.1), hlast]
  · rw [l5, emits_flatMap_same (g := Engine.oeQ) (fun b e => (shiftEvents_levels e u b).2.2.2.2)]

/-- The events of IN.READBIT before its sample drive the load and the clock line only. -/
theorem emits_pulses_levels (u p : Nat) : ∀ e : Engine,
    (e.emits (List.replicate p (clockEvents u)).flatten).loadQ = e.loadQ ∧
    (e.emits (List.replicate p (clockEvents u)).flatten).clkQ = (if p = 0 then e.clkQ else .high) ∧
    (e.emits (List.replicate p (clockEvents u)).flatten).dataQ = e.dataQ ∧
    (e.emits (List.replicate p (clockEvents u)).flatten).latchQ = e.latchQ ∧
    (e.emits (List.replicate p (clockEvents u)).flatten).oeQ = e.oeQ := by
  induction p with
  | zero => intro e; simp
  | succ p ih =>
    intro e
    rw [List.replicate_succ, List.flatten_cons, emits_append]
    obtain ⟨h1, h2, h3, h4, h5⟩ := ih (e.emits (clockEvents u))
    obtain ⟨l1, l2, l3, l4, l5⟩ := clockEvents_levels e u
    rw [h1, h2, h3, h4, h5, l1, l2, l3, l4, l5]
    simp

/-- The events of a chain read of `k` bytes, as one list after the load pulse. -/
theorem afterSamples_loadPulse (m : Nat) (e : Engine) :
    e.loadPulse.afterSamples m =
      e.emits (loadEvents e.params.delayUnit ++ (e.loadPulse.nextSamples m).flatMap (sampleEvents e.params.delayUnit)) := by
  rw [Engine.afterSamples, loadPulse_eq, emits_params, emits_append]

/-- A chain read of `m` samples, field by field (R101, R104). -/
theorem read_frame (m : Nat) (hm : 1 ≤ m) (e : Engine) :
    e.loadPulse.afterSamples m = { e with
      loadQ := .low
      clkQ := .high
      trace := e.trace ++ (loadEvents e.params.delayUnit ++
        (e.loadPulse.nextSamples m).flatMap (sampleEvents e.params.delayUnit))
      fresh := (e.loadPulse.afterSamples m).fresh
      attached := (e.loadPulse.afterSamples m).attached } := by
  obtain ⟨h1, h2, h3, h4, h5⟩ := emits_read_levels e e.params.delayUnit (e.loadPulse.nextSamples m)
  have hne : e.loadPulse.nextSamples m ≠ [] := by
    intro h; have := congrArg List.length h; simp at this; omega
  rw [if_neg hne] at h2
  rw [afterSamples_loadPulse]
  conv => lhs; rw [emits_frame, h1, h2, h3, h4, h5]

/-- A load pulse, field by field (R101). -/
theorem loadPulse_frame (e : Engine) :
    e.loadPulse = { e with
      loadQ := .low
      trace := e.trace ++ loadEvents e.params.delayUnit
      fresh := e.loadPulse.fresh
      attached := e.loadPulse.attached } := by
  obtain ⟨h1, h2, h3, h4, h5⟩ := loadEvents_levels e e.params.delayUnit
  rw [loadPulse_eq]
  conv => lhs; rw [emits_frame, h1, h2, h3, h4, h5]

/-- A load pulse and `p` clock pulses, field by field (R115). -/
theorem pulses_frame (p : Nat) (e : Engine) :
    Engine.clockPulses p e.loadPulse = { e with
      loadQ := .low
      clkQ := if p = 0 then e.clkQ else .high
      trace := e.trace ++ (loadEvents e.params.delayUnit ++ (List.replicate p (clockEvents e.params.delayUnit)).flatten)
      fresh := (Engine.clockPulses p e.loadPulse).fresh
      attached := (Engine.clockPulses p e.loadPulse).attached } := by
  obtain ⟨h1, h2, h3, h4, h5⟩ := loadEvents_levels e e.params.delayUnit
  obtain ⟨p1, p2, p3, p4, p5⟩ := emits_pulses_levels e.params.delayUnit p (e.emits (loadEvents e.params.delayUnit))
  rw [clockPulses_eq, loadPulse_eq, emits_params]
  conv => lhs; rw [emits_frame, p1, p2, p3, p4, p5, h1, h2, h3, h4, h5]
  apply Engine.ext <;> simp

/-- A full-chain write, field by field (R143). -/
theorem write_frame (e : Engine) (hn : 1 ≤ e.params.n) :
    e.fullWrite = { e with
      dataQ := Level.ofBool (byteBit (arrayByte e.cache 0) 0)
      clkQ := .high
      latchQ := .low
      trace := e.trace ++ fullWriteEvents e.params.delayUnit e.params.n e.cache
      fresh := e.fullWrite.fresh
      attached := e.fullWrite.attached } := by
  obtain ⟨h1, h2, h3, h4, h5⟩ := emits_write_levels e e.params.delayUnit e.params.n hn e.cache
  rw [fullWrite_eq]
  conv => lhs; rw [emits_frame, h1, h2, h3, h4, h5]

/-! The bodies, one equation for each way they end. -/

theorem inReadall_ok {e : Engine} (hx : e.xbuf.length = e.params.n) :
    e.inReadall e.params.n = Engine.finish .ok { e.loadPulse.afterSamples (8 * e.params.n) with
      xbuf := packBytes e.params.n (e.loadPulse.nextSamples (8 * e.params.n)) } := by
  unfold Engine.inReadall
  rw [if_pos rfl]
  simp only [readChain_eq]
  rw [memWriteAll_zero]
  rw [packBytes_length, afterSamples_loadPulse, emits_xbuf, hx]

theorem inReadbyte_ok {e : Engine} (h : e.params.n = 1) :
    e.inReadbyte = Engine.finish .ok { e.loadPulse.afterSamples 8 with
      rdata := byteWord (arrayByte (packBytes 1 (e.loadPulse.nextSamples 8)) 0) } := by
  unfold Engine.inReadbyte
  rw [if_pos h]
  simp only [readChain_eq]

theorem inReadword_ok {e : Engine} (h : e.params.n = 2) :
    e.inReadword = Engine.finish .ok { e.loadPulse.afterSamples 16 with
      rdata := pairWord (arrayByte (packBytes 2 (e.loadPulse.nextSamples 16)) 0)
        (arrayByte (packBytes 2 (e.loadPulse.nextSamples 16)) 1) } := by
  unfold Engine.inReadword
  rw [if_pos h]
  simp only [readChain_eq]

theorem inReadbit_ok {e : Engine} {idx : Nat} (h : idx < e.params.n * 8) :
    e.inReadbit idx = Engine.finish .ok
      { (Engine.clockPulses (pos idx) e.loadPulse).emit (.readData (Engine.clockPulses (pos idx) e.loadPulse).dataLine) with
        rdata := bitWord (Engine.clockPulses (pos idx) e.loadPulse).dataLine } := by
  unfold Engine.inReadbit
  have : outOfRange e.params.n idx = false := by simp [outOfRange]; omega
  rw [this]
  simp [Engine.sample]

theorem inReadbyte_fail {e : Engine} (h : e.params.n ≠ 1) :
    e.inReadbyte = Engine.finish .lengthMismatch { e with rdata := 0x00000000#32 } := if_neg h

theorem inReadword_fail {e : Engine} (h : e.params.n ≠ 2) :
    e.inReadword = Engine.finish .lengthMismatch { e with rdata := 0x00000000#32 } := if_neg h

theorem inReadall_fail {e : Engine} {len : Nat} (h : len ≠ e.params.n) :
    e.inReadall len = e.finish .lengthMismatch := if_neg h

theorem inReadbit_fail {e : Engine} {idx : Nat} (h : e.params.n * 8 ≤ idx) :
    e.inReadbit idx = Engine.finish .rangeError { e with rdata := 0x00000000#32 } :=
  if_pos (decide_eq_true h)

theorem inInit_ok {e : Engine} (h : capabilitiesPresent .iec e.params.bound = true) :
    e.inInit = Engine.finish .ok { e.emits [.gpioInit, .setClock false, .setLoad false] with ready := true } := if_pos h

theorem inInit_fail {e : Engine} (h : capabilitiesPresent .iec e.params.bound = false) :
    e.inInit = Engine.finish .configError { e with ready := false } := if_neg (by simp [h])

/-- The events of OUT.INIT before its full-chain write (R150). -/
def outInitEvents : List Event :=
  [.gpioInit, .setData false, .setClock false, .setLatch false, .setOutputEnable false]

theorem outInit_ok {e : Engine} (h : capabilitiesPresent .oec e.params.bound = true) :
    e.outInit = Engine.finish .ok
      { Engine.fullWrite { e.emits outInitEvents with cache := List.replicate e.params.n 0x00#8 } with ready := true } := by
  unfold Engine.outInit
  rw [if_pos h]
  simp [outInitEvents]

theorem outInit_fail {e : Engine} (h : capabilitiesPresent .oec e.params.bound = false) :
    e.outInit = Engine.finish .configError { e with ready := false } := if_neg (by simp [h])

theorem outWritebyte_ok {e : Engine} (h : e.params.n = 1) (data : Byte) :
    e.outWritebyte data = (Engine.fullWrite { e with cache := setArrayByte e.cache 0 data }).finish .ok := if_pos h

theorem outWritebyte_fail {e : Engine} (h : e.params.n ≠ 1) (data : Byte) :
    e.outWritebyte data = e.finish .lengthMismatch := if_neg h

theorem outWriteword_ok {e : Engine} (h : e.params.n = 2) (data : Half) :
    e.outWriteword data = (Engine.fullWrite
      { e with cache := setArrayByte (setArrayByte e.cache 0 (lowByte data)) 1 (highByte data) }).finish .ok := if_pos h

theorem outWriteword_fail {e : Engine} (h : e.params.n ≠ 2) (data : Half) :
    e.outWriteword data = e.finish .lengthMismatch := if_neg h

/-- Copying XBUF byte by byte into CACHE makes CACHE the bytes of XBUF (R155). -/
theorem copy_array {n : Nat} {x : List Byte} (h : Memory.wf n x) : (List.range n).map (fun c => arrayByte x c) = x := by
  apply List.ext_getElem
  · simpa using h.symm
  · intro i h1 h2
    simp [arrayByte, h2]

theorem outWriteall_ok {e : Engine} (h : Memory.wf e.params.n e.xbuf) :
    e.outWriteall e.params.n = (Engine.fullWrite { e with cache := e.xbuf }).finish .ok := by
  unfold Engine.outWriteall
  rw [if_pos rfl]
  simp only [Engine.memRead, copy_array h]

theorem outWriteall_fail {e : Engine} {len : Nat} (h : len ≠ e.params.n) :
    e.outWriteall len = e.finish .lengthMismatch := if_neg h

theorem outWritebit_ok {e : Engine} {idx : Nat} {v : Bool} (h : idx < e.params.n * 8) (hv : arrayBit e.cache idx ≠ v) :
    e.outWritebit idx v = (Engine.fullWrite { e with cache := setArrayBit e.cache idx v }).finish .ok := by
  unfold Engine.outWritebit
  rw [if_neg (by simp [outOfRange]; omega), if_neg hv]

theorem outWritebit_same {e : Engine} {idx : Nat} {v : Bool} (h : idx < e.params.n * 8) (hv : arrayBit e.cache idx = v) :
    e.outWritebit idx v = e.finish .unchanged := by
  unfold Engine.outWritebit
  rw [if_neg (by simp [outOfRange]; omega), if_pos hv]

theorem outWritebit_fail {e : Engine} {idx : Nat} {v : Bool} (h : e.params.n * 8 ≤ idx) :
    e.outWritebit idx v = e.finish .rangeError :=
  if_pos (decide_eq_true h)

/-! Words and bits of results. -/

theorem getLsbD_byteWord (b : Byte) (j : Nat) : (byteWord b).getLsbD j = (decide (j < 8) && b.getLsbD j) := by
  unfold byteWord
  rw [BitVec.getLsbD_append]
  by_cases h : j < 8 <;> simp [h]

theorem getLsbD_pairWord (a b : Byte) (j : Nat) :
    (pairWord a b).getLsbD j = if j < 8 then a.getLsbD j else (decide (j < 16) && b.getLsbD (j - 8)) := by
  unfold pairWord
  rw [BitVec.getLsbD_append, BitVec.getLsbD_append]
  by_cases h : j < 8
  · have : j < 16 := by omega
    simp [h, this]
  · by_cases h2 : j < 16
    · simp [h, h2]
    · have : ¬ j - 8 < 8 := by omega
      simp [h, h2]

/-- The full-chain write of an all-zero CACHE (R150). -/
theorem fullWriteEvents_zero (u n : Nat) : fullWriteEvents u n (List.replicate n 0#8) =
    (List.replicate (8 * n) (shiftEvents u false)).flatten ++ latchEvents u := by
  unfold fullWriteEvents
  congr 1
  have : shiftedBits n (List.replicate n 0#8) = List.replicate (8 * n) false := by
    apply List.ext_getElem
    · simp [shiftedBits]
    · intro i h1 h2
      simp [shiftedBits, arrayByte, byteBit]
  rw [this]
  simp [List.flatMap]

end Sys2Proof.Machine
end

