-- ==== Sys2Proof/Laws/Shape.lean ====
section
/-! SUPPORT. Each body has one of two shapes: an early completion with an error code, or UNCHANGED, and no event; or a list of
events and OK. The lemma that says so, `body_shape`, gives everything that the rules over all commands need. -/

namespace Sys2Proof.Machine

/-! Counting and selecting events. -/

theorem delaysIn_append (a b : List Event) : delaysIn (a ++ b) = delaysIn a + delaysIn b := by
  simp [delaysIn]

theorem samplesOf_append (a b : List Event) : samplesOf (a ++ b) = samplesOf a ++ samplesOf b := by
  induction a with
  | nil => rfl
  | cons x xs ih => cases x <;> simp [samplesOf, ih]

/-- Delay units, events and samples of a list of events (70_reset_and_hazards.md R251). -/
def countsOf (evs : List Event) : Nat × Nat × Nat := (delaysIn evs, evs.length, (samplesOf evs).length)

theorem countsOf_append (a b : List Event) :
    countsOf (a ++ b) = ((countsOf a).1 + (countsOf b).1, (countsOf a).2.1 + (countsOf b).2.1,
      (countsOf a).2.2 + (countsOf b).2.2) := by
  simp [countsOf, delaysIn_append, samplesOf_append]

theorem countsOf_flatMap {f : Bool → List Event} {x y z : Nat} (h : ∀ b, countsOf (f b) = (x, y, z)) (bs : List Bool) :
    countsOf (bs.flatMap f) = (x * bs.length, y * bs.length, z * bs.length) := by
  induction bs with
  | nil => rfl
  | cons b bs ih =>
    rw [List.flatMap_cons, countsOf_append, h, ih]
    simp only [List.length_cons, Nat.mul_succ, Prod.mk.injEq]
    omega

theorem countsOf_replicate {l : List Event} {x y z : Nat} (h : countsOf l = (x, y, z)) (p : Nat) :
    countsOf (List.replicate p l).flatten = (x * p, y * p, z * p) := by
  induction p with
  | zero => rfl
  | succ p ih =>
    rw [List.replicate_succ, List.flatten_cons, countsOf_append, h, ih]
    simp only [Nat.mul_succ, Prod.mk.injEq]
    omega

theorem countsOf_read (u : Nat) (ds : List Bool) :
    countsOf (loadEvents u ++ ds.flatMap (sampleEvents u)) = (2 + 2 * ds.length, 4 + 5 * ds.length, ds.length) := by
  rw [countsOf_append, countsOf_flatMap (x := 2) (y := 5) (z := 1) (fun b => rfl)]
  show (2 + _, 4 + _, 0 + _) = _
  simp

theorem countsOf_write (u n : Nat) (cache : List Byte) :
    countsOf (fullWriteEvents u n cache) = (2 + 16 * n, 4 + 40 * n, 0) := by
  unfold fullWriteEvents
  rw [countsOf_append, countsOf_flatMap (x := 2) (y := 5) (z := 0) (fun b => rfl), shiftedBits_length]
  show (_ + 2, _ + 4, _ + 0) = _
  simp only [Prod.mk.injEq]
  omega

theorem samplesOf_flatMap_none {f : Bool → List Event} (h : ∀ b, samplesOf (f b) = []) (bs : List Bool) :
    samplesOf (bs.flatMap f) = [] := by
  induction bs with
  | nil => rfl
  | cons b bs ih => rw [List.flatMap_cons, samplesOf_append, h, ih]; rfl

theorem samplesOf_read (u : Nat) (ds : List Bool) : samplesOf (loadEvents u ++ ds.flatMap (sampleEvents u)) = ds := by
  rw [samplesOf_append]
  show samplesOf (ds.flatMap (sampleEvents u)) = ds
  induction ds with
  | nil => rfl
  | cons d ds ih =>
    rw [List.flatMap_cons, samplesOf_append, ih]
    rfl

theorem samplesOf_write (u n : Nat) (cache : List Byte) : samplesOf (fullWriteEvents u n cache) = [] := by
  unfold fullWriteEvents
  rw [samplesOf_append, samplesOf_flatMap_none (fun b => rfl)]
  rfl

theorem samplesOf_replicate {l : List Event} (h : samplesOf l = []) (p : Nat) :
    samplesOf (List.replicate p l).flatten = [] := by
  induction p with
  | zero => rfl
  | succ p ih => rw [List.replicate_succ, List.flatten_cons, samplesOf_append, h, ih]; rfl

theorem allowed_read (u : Nat) (ds : List Bool) :
    ∀ ev ∈ loadEvents u ++ ds.flatMap (sampleEvents u), ev.allowed .iec u = true := by
  intro ev h
  rcases List.mem_append.mp h with h | h
  · simp only [loadEvents, List.mem_cons, List.not_mem_nil, or_false] at h
    rcases h with rfl | rfl | rfl | rfl <;> simp [Event.allowed]
  · obtain ⟨d, _, h⟩ := List.mem_flatMap.mp h
    simp only [sampleEvents, clockEvents, List.mem_cons, List.not_mem_nil, or_false] at h
    rcases h with rfl | rfl | rfl | rfl | rfl <;> simp [Event.allowed]

theorem allowed_write (u n : Nat) (cache : List Byte) :
    ∀ ev ∈ fullWriteEvents u n cache, ev.allowed .oec u = true := by
  intro ev h
  rcases List.mem_append.mp h with h | h
  · obtain ⟨d, _, h⟩ := List.mem_flatMap.mp h
    simp only [shiftEvents, clockEvents, List.mem_cons, List.not_mem_nil, or_false] at h
    rcases h with rfl | rfl | rfl | rfl | rfl <;> simp [Event.allowed]
  · simp only [latchEvents, List.mem_cons, List.not_mem_nil, or_false] at h
    rcases h with rfl | rfl | rfl | rfl <;> simp [Event.allowed]

/-! Emission reads and writes the levels, the pins, the trace and the count only. -/

/-- Emission is the same on engines that differ in what it does not read. -/
theorem emits_with (evs : List Event) : ∀ (e : Engine) (r : Bool) (st rd : Word) (xb ca : List Byte),
    ({ e with ready := r, status := st, rdata := rd, xbuf := xb, cache := ca } : Engine).emits evs =
      { e.emits evs with ready := r, status := st, rdata := rd, xbuf := xb, cache := ca } := by
  induction evs with
  | nil => intro e r st rd xb ca; rfl
  | cons x xs ih =>
    intro e r st rd xb ca
    rw [emits_cons, emits_cons, ← ih]
    congr 1
    cases x <;> rfl

/-- Events that drive no line of the other kind leave those lines' levels. -/
theorem emits_other_levels (u : Nat) (evs : List Event) : ∀ e : Engine,
    ((∀ ev ∈ evs, ev.allowed .iec u = true) →
      (e.emits evs).dataQ = e.dataQ ∧ (e.emits evs).latchQ = e.latchQ ∧ (e.emits evs).oeQ = e.oeQ) ∧
    ((∀ ev ∈ evs, ev.allowed .oec u = true) → (e.emits evs).loadQ = e.loadQ) := by
  induction evs with
  | nil => intro e; simp
  | cons x xs ih =>
    intro e
    obtain ⟨h1, h2⟩ := ih (e.emit x)
    constructor
    · intro h
      obtain ⟨a, b, c⟩ := h1 fun ev hev => h ev (List.mem_cons_of_mem _ hev)
      have hx := h x List.mem_cons_self
      rw [emits_cons, a, b, c]
      cases x <;> simp [Engine.drive, Event.allowed] at hx ⊢
    · intro h
      have a := h2 fun ev hev => h ev (List.mem_cons_of_mem _ hev)
      have hx := h x List.mem_cons_self
      rw [emits_cons, a]
      cases x <;> simp [Engine.drive, Event.allowed] at hx ⊢

/-- A data line under no law loses one draw for each sample. -/
theorem emits_line (evs : List Event) : ∀ {e : Engine} {ds : List Bool}, e.attached = .line ds →
    (e.emits evs).attached = .line (ds.drop (samplesOf evs).length) := by
  induction evs with
  | nil => intro e ds h; simpa [samplesOf] using h
  | cons x xs ih =>
    intro e ds h
    rw [emits_cons]
    cases x with
    | readData d =>
      rw [ih (ds := ds.tail) (by simp [Engine.attachedAfter, h])]
      simp [samplesOf, List.drop_tail]
    | gpioInit => rw [ih (ds := ds) (by simp [Engine.attachedAfter, h])]; rfl
    | setLoad b => rw [ih (ds := ds) (by simp [Engine.attachedAfter, h])]; rfl
    | setClock b => rw [ih (ds := ds) (by simp [Engine.attachedAfter, h])]; rfl
    | setLatch b => rw [ih (ds := ds) (by simp [Engine.attachedAfter, h])]; rfl
    | setData b => rw [ih (ds := ds) (by simp [Engine.attachedAfter, h])]; rfl
    | setOutputEnable b => rw [ih (ds := ds) (by simp [Engine.attachedAfter, h])]; rfl
    | delay t => rw [ih (ds := ds) (by simp [Engine.attachedAfter, h])]; rfl

theorem inputChip_react_fits {n : Nat} (hn : 1 ≤ n) {c : InputChip} (h : c.shift.length = 8 * n) (si : Bool) (l : Level)
    (ev : Event) : (c.react n si l ev).inputs = c.inputs ∧ (c.react n si l ev).shift.length = 8 * n := by
  cases ev with
  | setLoad b => cases b <;> simp [InputChip.react, h, capture_length]
  | setClock b =>
    refine ⟨rfl, ?_⟩
    simp only [InputChip.react]
    split
    · simp [h]; omega
    · exact h
  | gpioInit => exact ⟨rfl, h⟩
  | readData d => exact ⟨rfl, h⟩
  | setLatch b => exact ⟨rfl, h⟩
  | setData b => exact ⟨rfl, h⟩
  | setOutputEnable b => exact ⟨rfl, h⟩
  | delay t => exact ⟨rfl, h⟩

theorem outputChip_react_fits {n : Nat} (hn : 1 ≤ n) {c : OutputChip} (h : c.shift.length = 8 * n)
    (hq : c.storage.length = 8 * n) (free : Bool) (x y z : Level) (ev : Event) :
    (c.react free x y z ev).shift.length = 8 * n ∧ (c.react free x y z ev).storage.length = 8 * n := by
  cases ev with
  | setClock b =>
    cases b
    · exact ⟨h, hq⟩
    · simp only [OutputChip.react]
      split
      · simp [h, hq]; omega
      · exact ⟨h, hq⟩
  | setLatch b =>
    cases b
    · exact ⟨h, hq⟩
    · simp only [OutputChip.react]
      split
      · exact ⟨h, h⟩
      · exact ⟨h, hq⟩
  | setLoad b => exact ⟨h, hq⟩
  | gpioInit => exact ⟨h, hq⟩
  | readData d => exact ⟨h, hq⟩
  | setData b => exact ⟨h, hq⟩
  | setOutputEnable b => exact ⟨h, hq⟩
  | delay t => exact ⟨h, hq⟩

/-- What is on the pins keeps fitting the engine. -/
theorem emit_fits {e : Engine} (hn : 1 ≤ e.params.n) (h : e.attached.fits e.params = true) (ev : Event) :
    (e.emit ev).attached.fits e.params = true := by
  rw [emit_attached]
  unfold Engine.attachedAfter
  cases ha : e.attached with
  | line ds => cases ev <;> rfl
  | inputChip c =>
    rw [ha] at h
    simp only [Attached.fits, Bool.and_eq_true, decide_eq_true_eq] at h ⊢
    obtain ⟨h1, h2⟩ := inputChip_react_fits hn h.2 (Config.freeSerialIn e.params.base e.fresh) e.loadQ ev
    exact ⟨⟨h.1.1, by rw [h1]; exact h.1.2⟩, h2⟩
  | outputChip c =>
    rw [ha] at h
    simp only [Attached.fits, Bool.and_eq_true, decide_eq_true_eq] at h ⊢
    obtain ⟨h1, h2⟩ := outputChip_react_fits hn h.1.2 h.2 (Config.freeLevel e.params.base e.fresh) e.clkQ e.dataQ e.latchQ ev
    exact ⟨⟨h.1.1, h1⟩, h2⟩

theorem emits_fits (evs : List Event) : ∀ {e : Engine}, 1 ≤ e.params.n → e.attached.fits e.params = true →
    (e.emits evs).attached.fits e.params = true := by
  induction evs with
  | nil => intro e _ h; exact h
  | cons x xs ih =>
    intro e hn h
    have := ih (e := e.emit x) (by simpa using hn) (by rw [emit_params]; exact emit_fits hn h x)
    rwa [emit_params] at this

/-! The shape of a body. -/

/-- A body that ends early: an error code or UNCHANGED, and no event (60_exceptions.md R207). -/
structure Early (i : Instr) (e x : Engine) : Prop where
  own : ownStatus i e ≠ 0#32
  eq : x = { e with
    status := ownStatus i e
    ready := if ownStatus i e = 0x04#32 then false else e.ready
    rdata := if (ownStatus i e = 0x02#32 ∨ ownStatus i e = 0x03#32) ∧ writesRdata i = true then 0#32 else e.rdata }

/-- A body that ends with OK: the events it emits, and what it leaves. -/
structure Done (i : Instr) (e : Engine) (evs : List Event) (x : Engine) : Prop where
  own : ownStatus i e = 0#32
  eq : x = { e.emits evs with
    status := 0#32, ready := if i.isInit = true then true else e.ready, rdata := x.rdata, xbuf := x.xbuf, cache := x.cache }
  rdata_same : writesRdata i = false → x.rdata = e.rdata
  rdata_high : writesRdata i = true → x.rdata.extractLsb' 16 16 = 0#16
  xbuf_same : (∀ len, i ≠ .inReadall len) → x.xbuf = e.xbuf
  xbuf_length : e.xbuf.length = e.params.n → x.xbuf.length = e.params.n
  cache_same : writesChain i = false → x.cache = e.cache
  cache_length : writesChain i = true → e.xbuf.length = e.params.n → e.cache.length = e.params.n →
    x.cache.length = e.params.n
  counts : countsOf evs = okCounts e.params.n i
  allowed : ∀ ev ∈ evs, ev.allowed i.kind e.params.delayUnit = true
  draws : ∀ ds, e.attached = .line ds → (samplesOf evs).length ≤ ds.length →
    samplesOf evs = ds.take (samplesOf evs).length
  lines : 1 ≤ e.params.n → (i.isInit = true ∨ e.linesDriven) → e.params.kind = i.kind → (e.emits evs).linesDriven

theorem extract_byteWord (b : Byte) : (byteWord b).extractLsb' 16 16 = 0#16 := by
  apply BitVec.eq_of_getLsbD_eq
  intro j hj
  rw [BitVec.getLsbD_extractLsb', getLsbD_byteWord]
  have : ¬ 16 + j < 8 := by omega
  simp [this]

theorem extract_pairWord (a b : Byte) : (pairWord a b).extractLsb' 16 16 = 0#16 := by
  apply BitVec.eq_of_getLsbD_eq
  intro j hj
  rw [BitVec.getLsbD_extractLsb', getLsbD_pairWord]
  have h1 : ¬ 16 + j < 8 := by omega
  simp [h1]

theorem extract_bitWord (d : Bool) : (bitWord d).extractLsb' 16 16 = 0#16 := by
  cases d <;> rfl

theorem kind_iec_lines {e : Engine} (hk : e.params.kind = .iec) : e.linesDriven ↔ e.loadQ = .low ∧ e.clkQ.driven = true := by
  unfold Engine.linesDriven; rw [hk]

theorem kind_oec_lines {e : Engine} (hk : e.params.kind = .oec) : e.linesDriven ↔
    e.dataQ.driven = true ∧ e.clkQ.driven = true ∧ e.latchQ = .low ∧ e.oeQ.driven = true := by
  unfold Engine.linesDriven; rw [hk]

theorem driven_ofBool (b : Bool) : (Level.ofBool b).driven = true := by cases b <;> rfl

/-- The lines after a chain read (70_reset_and_hazards.md R250). -/
theorem lines_read {e : Engine} {u : Nat} {ds : List Bool} (hd : ds ≠ []) (hk : e.params.kind = .iec) :
    (e.emits (loadEvents u ++ ds.flatMap (sampleEvents u))).linesDriven := by
  obtain ⟨h1, h2, _⟩ := emits_read_levels e u ds
  rw [kind_iec_lines (by simpa using hk), h1, h2, if_neg hd]
  exact ⟨rfl, rfl⟩

/-- The lines after a full-chain write (R250). -/
theorem lines_write {e : Engine} {u n : Nat} {cache : List Byte} (hn : 1 ≤ n) (hk : e.params.kind = .oec)
    (ho : e.oeQ.driven = true) : (e.emits (fullWriteEvents u n cache)).linesDriven := by
  obtain ⟨_, h2, h3, h4, h5⟩ := emits_write_levels e u n hn cache
  rw [kind_oec_lines (by simpa using hk), h2, h3, h4, h5]
  exact ⟨driven_ofBool _, rfl, rfl, ho⟩

/-- A full-chain write of a new CACHE is the emission of its events on the old engine. -/
theorem fullWrite_with (e : Engine) (ca : List Byte) :
    Engine.fullWrite { e with cache := ca } =
      { e.emits (fullWriteEvents e.params.delayUnit e.params.n ca) with cache := ca } := by
  rw [fullWrite_eq]
  have := emits_with (fullWriteEvents e.params.delayUnit e.params.n ca) e e.ready e.status e.rdata e.xbuf ca
  refine this.trans ?_
  apply Engine.ext <;> simp

/-- A chain read gives the draws of a data line (00_scope.md R14). -/
theorem line_read_samples {e : Engine} {ds : List Bool} (h : e.attached = .line ds) {m : Nat} (hm : m ≤ ds.length) :
    e.loadPulse.nextSamples m = ds.take m :=
  (line_nextSamples m (line_loadPulse h) hm).1

theorem line_clockPulses {ds : List Bool} (p : Nat) : ∀ {e : Engine}, e.attached = .line ds →
    (Engine.clockPulses p e).attached = .line ds := by
  induction p with
  | zero => intro e h; exact h
  | succ p ih => intro e h; exact ih (line_clockPulse h)

/-- The shape shared by the three chain reads: `m` samples, and what is then stored. -/
theorem done_read {i : Instr} {e x : Engine} {m : Nat} (hm : 1 ≤ e.params.n → 1 ≤ m) (hk : i.kind = .iec)
    (hc : okCounts e.params.n i = (2 + 2 * m, 4 + 5 * m, m)) (hi : i.isInit = false) (hw : writesChain i = false)
    (own : ownStatus i e = 0#32) (rd : Word) (xb : List Byte)
    (hx : x = { e.loadPulse.afterSamples m with status := 0#32, rdata := rd, xbuf := xb })
    (h1 : writesRdata i = false → rd = e.rdata) (h2 : writesRdata i = true → rd.extractLsb' 16 16 = 0#16)
    (h3 : (∀ len, i ≠ .inReadall len) → xb = e.xbuf) (h4 : e.xbuf.length = e.params.n → xb.length = e.params.n) :
    Done i e (loadEvents e.params.delayUnit ++ (e.loadPulse.nextSamples m).flatMap (sampleEvents e.params.delayUnit)) x := by
  subst hx
  constructor
  · exact own
  · rw [afterSamples_loadPulse]; apply Engine.ext <;> simp [hi]
  · exact h1
  · exact h2
  · exact h3
  · exact h4
  · intro _; rw [afterSamples_loadPulse]; simp
  · intro h; rw [hw] at h; cases h
  · rw [countsOf_read, hc, nextSamples_length]
  · rw [hk]; exact allowed_read _ _
  · intro ds h hl
    rw [samplesOf_read] at hl ⊢
    rw [nextSamples_length] at hl ⊢
    exact line_read_samples h hl
  · intro hn _ hk'
    have := hm hn
    refine lines_read ?_ (hk'.trans hk)
    intro h; have := congrArg List.length h; simp at this; omega

/-- The shape shared by the writes. -/
theorem done_write {i : Instr} {e x : Engine} (hk : i.kind = .oec)
    (hc : okCounts e.params.n i = (2 + 16 * e.params.n, 4 + 40 * e.params.n, 0)) (hi : i.isInit = false)
    (hr : writesRdata i = false) (own : ownStatus i e = 0#32) (ca : List Byte)
    (hx : x = (Engine.fullWrite { e with cache := ca }).finish .ok)
    (hw : writesChain i = true) (h : e.xbuf.length = e.params.n → e.cache.length = e.params.n → ca.length = e.params.n) :
    Done i e (fullWriteEvents e.params.delayUnit e.params.n ca) x := by
  rw [fullWrite_with] at hx
  subst hx
  constructor
  · exact own
  · apply Engine.ext <;> simp [hi, Code.statusWord, Code.value]
  · intro _; simp
  · intro h; rw [hr] at h; cases h
  · intro _; simp
  · intro h; simpa using h
  · intro h; rw [hw] at h; cases h
  · intro _; exact h
  · rw [countsOf_write, hc]
  · rw [hk]; exact allowed_write _ _ _
  · intro ds _ _; rw [samplesOf_write]; rfl
  · intro hn hl hk'
    rcases hl with hl | hl
    · rw [hi] at hl; cases hl
    · rw [kind_oec_lines (hk'.trans hk)] at hl
      exact lines_write hn (hk'.trans hk) hl.2.2.2

/-- The shape shared by the commands that only drive the output-enable line. -/
theorem done_enable {i : Instr} {e x : Engine} (b : Bool) (ht : togglesEnable i = true)
    (hx : x = (e.emit (.setOutputEnable b)).finish .ok) : Done i e [.setOutputEnable b] x := by
  subst hx
  have hl : ∀ k : Kind, k = .oec → e.linesDriven → e.params.kind = k → (e.emits [.setOutputEnable b]).linesDriven := by
    rintro k rfl hl hk
    rw [kind_oec_lines hk] at hl
    rw [kind_oec_lines (by simpa using hk)]
    simp [Engine.drive, driven_ofBool, hl]
  cases i <;> (simp only [togglesEnable, Bool.false_eq_true] at ht)
  all_goals constructor
  all_goals first
    | rfl
    | exact fun _ h hk => h.elim (fun h => absurd h (by simp [Instr.isInit])) (fun h => hl _ rfl h hk)
    | simp [writesRdata, writesChain, Event.allowed, Instr.kind, samplesOf]

/-- Every body, once the engine has the command, ends early or with OK. -/
theorem body_shape (i : Instr) (e : Engine) :
    Early i e (bodyOf i e) ∨ ∃ evs, Done i e evs (bodyOf i e) := by
  cases i with
  | inInit =>
    cases hc : capabilitiesPresent .iec e.params.bound with
    | false =>
      left
      have ho : ownStatus .inInit e = 0x04#32 := by simp [ownStatus, hc]
      exact ⟨by rw [ho]; decide, by rw [show bodyOf .inInit e = _ from inInit_fail hc, ho]; rfl⟩
    | true =>
      right
      refine ⟨[.gpioInit, .setClock false, .setLoad false], ?_⟩
      rw [show bodyOf .inInit e = _ from inInit_ok hc]
      constructor
      · simp [ownStatus, hc]
      · apply Engine.ext <;> simp [Code.statusWord, Code.value, Instr.isInit]
      · intro _; simp
      · intro h; cases h
      · intro _; simp
      · intro h; simpa using h
      · intro _; simp
      · intro h; cases h
      · rfl
      · simp [Event.allowed, Instr.kind]
      · intro ds _ _; rfl
      · intro _ _ hk
        rw [kind_iec_lines (by rw [emits_params]; exact hk)]
        exact ⟨rfl, rfl⟩
  | inLoad =>
    right
    refine ⟨loadEvents e.params.delayUnit, ?_⟩
    rw [show bodyOf .inLoad e = (e.emits (loadEvents e.params.delayUnit)).finish .ok from rfl]
    constructor
    · rfl
    · apply Engine.ext <;> simp [Code.statusWord, Code.value, Instr.isInit]
    · intro _; simp
    · intro h; cases h
    · intro _; simp
    · intro h; simpa using h
    · intro _; simp
    · intro h; cases h
    · rfl
    · simp [Event.allowed, Instr.kind, loadEvents]
    · intro ds _ _; rfl
    · intro _ hl hk
      rcases hl with hl | hl
      · cases hl
      · rw [kind_iec_lines hk] at hl
        rw [kind_iec_lines (by rw [emits_params]; exact hk)]
        obtain ⟨h1, h2, _⟩ := loadEvents_levels e e.params.delayUnit
        rw [h1, h2]
        exact ⟨rfl, hl.2⟩
  | inReadbyte =>
    by_cases h : e.params.n = 1
    · right
      refine ⟨_, done_read (m := 8) (by omega) rfl rfl rfl rfl (by simp [ownStatus, h])
        (byteWord (arrayByte (packBytes 1 (e.loadPulse.nextSamples 8)) 0)) e.xbuf ?_ (by simp [writesRdata])
        (fun _ => extract_byteWord _) (fun _ => rfl) id⟩
      rw [show bodyOf .inReadbyte e = _ from inReadbyte_ok h, afterSamples_loadPulse]
      apply Engine.ext <;> simp [Code.statusWord, Code.value]
    · left
      have ho : ownStatus .inReadbyte e = 0x02#32 := by simp [ownStatus, h]
      exact ⟨by rw [ho]; decide, by rw [show bodyOf .inReadbyte e = _ from inReadbyte_fail h, ho]; rfl⟩
  | inReadword =>
    by_cases h : e.params.n = 2
    · right
      refine ⟨_, done_read (m := 16) (by omega) rfl rfl rfl rfl (by simp [ownStatus, h])
        (pairWord (arrayByte (packBytes 2 (e.loadPulse.nextSamples 16)) 0)
          (arrayByte (packBytes 2 (e.loadPulse.nextSamples 16)) 1)) e.xbuf ?_ (by simp [writesRdata])
        (fun _ => extract_pairWord _ _) (fun _ => rfl) id⟩
      rw [show bodyOf .inReadword e = _ from inReadword_ok h, afterSamples_loadPulse]
      apply Engine.ext <;> simp [Code.statusWord, Code.value]
    · left
      have ho : ownStatus .inReadword e = 0x02#32 := by simp [ownStatus, h]
      exact ⟨by rw [ho]; decide, by rw [show bodyOf .inReadword e = _ from inReadword_fail h, ho]; rfl⟩
  | inReadall len =>
    by_cases h : len = e.params.n
    · right
      subst h
      refine ⟨_, done_read (m := 8 * e.params.n) (by omega) rfl ?_ rfl rfl (by simp [ownStatus]) e.rdata
        (bodyOf (.inReadall e.params.n) e).xbuf ?_ (by simp) (fun h => by cases h) (fun h => absurd rfl (h _)) ?_⟩
      · simp [okCounts]; omega
      · simp only [bodyOf, Engine.inReadall, if_pos, readChain_eq, afterSamples_loadPulse]
        rw [memWriteAll_frame]
        apply Engine.ext <;> simp [Code.statusWord, Code.value]
      · intro hx
        simp only [bodyOf, Engine.inReadall, if_pos, readChain_eq, afterSamples_loadPulse, finish_xbuf]
        exact memWriteAll_wf _ 0 (by simpa using hx)
    · left
      have ho : ownStatus (.inReadall len) e = 0x02#32 := by simp [ownStatus, h]
      exact ⟨by rw [ho]; decide, by rw [show bodyOf (.inReadall len) e = _ from inReadall_fail h, ho]; rfl⟩
  | inReadbit idx =>
    by_cases h : e.params.n * 8 ≤ idx
    · left
      have ho : ownStatus (.inReadbit idx) e = 0x03#32 := by simp [ownStatus, h]
      exact ⟨by rw [ho]; decide, by rw [show bodyOf (.inReadbit idx) e = _ from inReadbit_fail h, ho]; rfl⟩
    · right
      have h' : idx < e.params.n * 8 := by omega
      refine ⟨loadEvents e.params.delayUnit ++ (List.replicate (pos idx) (clockEvents e.params.delayUnit)).flatten ++
        [.readData (Engine.clockPulses (pos idx) e.loadPulse).dataLine], ?_⟩
      have hb := inReadbit_ok h'
      rw [show bodyOf (.inReadbit idx) e = _ from hb]
      have hp : Engine.clockPulses (pos idx) e.loadPulse = e.emits
          (loadEvents e.params.delayUnit ++ (List.replicate (pos idx) (clockEvents e.params.delayUnit)).flatten) := by
        rw [clockPulses_eq, loadPulse_eq, emits_params, emits_append]
      generalize hd : (Engine.clockPulses (pos idx) e.loadPulse).dataLine = d
      have hcnt : countsOf (loadEvents e.params.delayUnit ++
          (List.replicate (pos idx) (clockEvents e.params.delayUnit)).flatten ++ [.readData d]) =
          (2 + 2 * pos idx, 5 + 4 * pos idx, 1) := by
        rw [countsOf_append, countsOf_append, countsOf_replicate (x := 2) (y := 4) (z := 0) rfl]
        show (2 + _ + 0, 4 + _ + 1, 0 + _ + 1) = _
        simp only [Prod.mk.injEq]; omega
      have hsam : samplesOf (loadEvents e.params.delayUnit ++
          (List.replicate (pos idx) (clockEvents e.params.delayUnit)).flatten ++ [.readData d]) = [d] := by
        rw [samplesOf_append, samplesOf_append, samplesOf_replicate rfl]; rfl
      constructor
      · simp [ownStatus, h]
      · rw [emits_append, ← hp]; apply Engine.ext <;> simp [Code.statusWord, Code.value, Instr.isInit, hp]
      · intro h; cases h
      · intro _; exact extract_bitWord _
      · intro _; simp [hp]
      · intro h; simpa [hp] using h
      · intro _; simp [hp]
      · intro h; cases h
      · rw [hcnt]; rfl
      · intro ev hev
        simp only [List.mem_append, List.mem_flatten, List.mem_replicate] at hev
        rcases hev with (hev | ⟨l, ⟨_, rfl⟩, hev⟩) | hev
        · simp only [loadEvents, List.mem_cons, List.not_mem_nil, or_false] at hev
          rcases hev with rfl | rfl | rfl | rfl <;> simp [Event.allowed, Instr.kind]
        · simp only [clockEvents, List.mem_cons, List.not_mem_nil, or_false] at hev
          rcases hev with rfl | rfl | rfl | rfl <;> simp [Event.allowed]
        · simp only [List.mem_singleton] at hev
          subst hev; simp [Event.allowed, Instr.kind]
      · intro ds ha hl
        rw [hsam] at hl ⊢
        have h1 := line_clockPulses (pos idx) (line_loadPulse ha)
        cases ds with
        | nil => simp at hl
        | cons x xs =>
          have : d = x := by rw [← hd]; simp [Engine.dataLine, h1]
          simp [this]
      · intro _ hl hk
        rcases hl with hl | hl
        · cases hl
        · rw [kind_iec_lines hk] at hl
          rw [kind_iec_lines (by rw [emits_params]; exact hk), emits_append, ← hp, pulses_frame]
          simp only [emits_cons, emits_nil, emit_loadQ, emit_clkQ, Engine.drive]
          refine ⟨trivial, ?_⟩
          split
          · exact hl.2
          · rfl
  | outInit =>
    cases hc : capabilitiesPresent .oec e.params.bound with
    | false =>
      left
      have ho : ownStatus .outInit e = 0x04#32 := by simp [ownStatus, hc]
      exact ⟨by rw [ho]; decide, by rw [show bodyOf .outInit e = _ from outInit_fail hc, ho]; rfl⟩
    | true =>
      right
      refine ⟨outInitEvents ++ fullWriteEvents e.params.delayUnit e.params.n (List.replicate e.params.n 0x00#8), ?_⟩
      rw [show bodyOf .outInit e = _ from outInit_ok hc, fullWrite_with, emits_params]
      constructor
      · simp [ownStatus, hc]
      · rw [emits_append]; apply Engine.ext <;> simp [Code.statusWord, Code.value, Instr.isInit]
      · intro _; simp
      · intro h; cases h
      · intro _; simp
      · intro h; simpa using h
      · intro h; cases h
      · intro _ _ _; simp
      · rw [countsOf_append, countsOf_write]
        simp [okCounts, countsOf, outInitEvents, delaysIn, samplesOf]; omega
      · intro ev hev
        rcases List.mem_append.mp hev with hev | hev
        · simp only [outInitEvents, List.mem_cons, List.not_mem_nil, or_false] at hev
          rcases hev with rfl | rfl | rfl | rfl | rfl <;> simp [Event.allowed, Instr.kind]
        · exact allowed_write _ _ _ ev hev
      · intro ds _ _; rw [samplesOf_append, samplesOf_write]; rfl
      · intro hn _ hk
        rw [emits_append]
        refine lines_write hn (by rw [emits_params]; exact hk) ?_
        simp [outInitEvents, Engine.drive, driven_ofBool]
  | outEnable => right; exact ⟨_, done_enable true rfl rfl⟩
  | outDisable => right; exact ⟨_, done_enable false rfl rfl⟩
  | outDeinit => right; exact ⟨_, done_enable false rfl rfl⟩
  | outWritebyte data =>
    by_cases h : e.params.n = 1
    · right
      refine ⟨_, done_write rfl (by simp [okCounts, h]) rfl rfl (by simp [ownStatus, h]) _ (outWritebyte_ok h data) rfl ?_⟩
      intro _ hc; exact setArrayByte_wf hc _ _
    · left
      have ho : ownStatus (.outWritebyte data) e = 0x02#32 := by simp [ownStatus, h]
      exact ⟨by rw [ho]; decide, by rw [show bodyOf (.outWritebyte data) e = _ from outWritebyte_fail h data, ho]; rfl⟩
  | outWriteword data =>
    by_cases h : e.params.n = 2
    · right
      refine ⟨_, done_write rfl (by simp [okCounts, h]) rfl rfl (by simp [ownStatus, h]) _ (outWriteword_ok h data) rfl ?_⟩
      intro _ hc; exact setArrayByte_wf (setArrayByte_wf hc _ _) _ _
    · left
      have ho : ownStatus (.outWriteword data) e = 0x02#32 := by simp [ownStatus, h]
      exact ⟨by rw [ho]; decide, by rw [show bodyOf (.outWriteword data) e = _ from outWriteword_fail h data, ho]; rfl⟩
  | outWriteall len =>
    by_cases h : len = e.params.n
    · right
      subst h
      refine ⟨_, done_write rfl (by simp [okCounts]) rfl rfl (by simp [ownStatus])
        ((List.range e.params.n).map fun c => e.memRead c) ?_ rfl (by simp)⟩
      simp only [bodyOf, Engine.outWriteall, if_pos]
    · left
      have ho : ownStatus (.outWriteall len) e = 0x02#32 := by simp [ownStatus, h]
      exact ⟨by rw [ho]; decide, by rw [show bodyOf (.outWriteall len) e = _ from outWriteall_fail h, ho]; rfl⟩
  | outWritebit idx v =>
    by_cases h : e.params.n * 8 ≤ idx
    · left
      have ho : ownStatus (.outWritebit idx v) e = 0x03#32 := by simp [ownStatus, h]
      exact ⟨by rw [ho]; decide, by rw [show bodyOf (.outWritebit idx v) e = _ from outWritebit_fail h, ho]; rfl⟩
    · by_cases hv : arrayBit e.cache idx = v
      · left
        have ho : ownStatus (.outWritebit idx v) e = 0x01#32 := by simp [ownStatus, h, hv]
        exact ⟨by rw [ho]; decide, by
          rw [show bodyOf (.outWritebit idx v) e = _ from outWritebit_same (by omega) hv, ho]; rfl⟩
      · right
        refine ⟨_, done_write rfl (by simp [okCounts]) rfl rfl (by simp [ownStatus, h, hv]) _
          (outWritebit_ok (by omega) hv) rfl ?_⟩
        intro _ hc; exact setArrayBit_wf hc _ _

theorem own_begin (i : Instr) (e : Engine) : ownStatus i e.begin = ownStatus i e := by cases i <;> rfl

/-- A command's own check gives one of the codes of R200. -/
theorem own_codes (i : Instr) (e : Engine) : ∃ c : Code, ownStatus i e = c.statusWord := by
  cases i <;> simp only [ownStatus] <;> (repeat' split)
  all_goals first
    | exact ⟨.ok, rfl⟩
    | exact ⟨.lengthMismatch, rfl⟩
    | exact ⟨.rangeError, rfl⟩
    | exact ⟨.configError, rfl⟩
    | exact ⟨.unchanged, rfl⟩

/-- Only an init command can end with CONFIG_ERROR (R201). -/
theorem own_config {i : Instr} {e : Engine} (h : ownStatus i e = 0x04#32) : i.isInit = true := by
  revert h
  cases i <;> simp only [ownStatus, Instr.isInit] <;> (repeat' split) <;> simp

theorem code_le (c : Code) : c.statusWord.toNat ≤ 6 := by cases c <;> decide

theorem early_status {i : Instr} {e x : Engine} (h : Early i e x) : x.status = ownStatus i e := by rw [h.eq]

theorem done_status {i : Instr} {e x : Engine} {evs} 
    (h : Done i e evs x) : x.status = 0#32 := by rw [h.eq]

/-- What a command leaves on the current engine, said once: BAD_COMMAND, NOT_READY, an early end of its body, or OK. -/
theorem result_cases (i : Instr) (e : Engine) :
    (e.params.kind ≠ i.kind ∧ resultOf i e = { e with status := 5#32, trace := [] }) ∨
    (e.params.kind = i.kind ∧ i.isInit = false ∧ e.ready = false ∧
      resultOf i e = { e with status := 6#32, trace := [] }) ∨
    (e.params.kind = i.kind ∧ (i.isInit = true ∨ e.ready = true) ∧ Early i e.begin (resultOf i e)) ∨
    (e.params.kind = i.kind ∧ (i.isInit = true ∨ e.ready = true) ∧
      ∃ evs, Done i e.begin evs (resultOf i e)) := by
  by_cases hk : e.params.kind = i.kind
  · by_cases h : i.isInit = true ∨ e.ready = true
    · rw [resultOf_body hk h]
      rcases body_shape i e.begin with h' | h'
      · exact .inr (.inr (.inl ⟨hk, h, h'⟩))
      · exact .inr (.inr (.inr ⟨hk, h, h'⟩))
    · right; left
      have : i.isInit = false ∧ e.ready = false := by simpa using h
      exact ⟨hk, this.1, this.2, resultOf_not_ready hk this.1 this.2⟩
  · exact .inl ⟨hk, resultOf_foreign hk⟩

/-- No command writes the parameters. -/
theorem result_params (i : Instr) (e : Engine) : (resultOf i e).params = e.params := by
  rcases result_cases i e with ⟨hk, hr⟩ | ⟨hk, hi, hr', hr⟩ | ⟨hk, hi, hr⟩ | ⟨hk, hi, evs, hr⟩
  · rw [hr]
  · rw [hr]
  · rw [hr.eq]; rfl
  · rw [hr.eq]; simp

/-- Every command leaves one of the codes of R200 in STATUS. -/
theorem result_code (i : Instr) (e : Engine) : ∃ c : Code, (resultOf i e).status = c.statusWord := by
  rcases result_cases i e with ⟨hk, hr⟩ | ⟨hk, hi, hr', hr⟩ | ⟨hk, hi, hr⟩ | ⟨hk, hi, evs, hr⟩
  · exact ⟨.badCommand, by rw [hr]; rfl⟩
  · exact ⟨.notReady, by rw [hr]; rfl⟩
  · rw [early_status hr]; exact own_codes _ _
  · exact ⟨.ok, done_status hr⟩

end Sys2Proof.Machine
end

