-- ==== Sys2Proof/Laws/Bus.lean ====
section
/-! SUPPORT. The host's side, said once for each operation: which engine an address finds, what turning to an engine does, and
what each action leaves when it answers a next state. -/

namespace Sys2Proof.Machine

/-! Finding and turning to an engine. -/

/-- The engine an address finds is there and covers it. -/
theorem find_some {s : State} {addr k : Nat} (h : s.find addr = some k) :
    ∃ e, s.engines[k]? = some e ∧ e.covers addr = true := by
  obtain ⟨hk, hc, _⟩ := List.findIdx?_eq_some_iff_getElem.mp h
  exact ⟨s.engines[k], List.getElem?_eq_getElem hk, hc⟩

/-- No engine covers an address that finds none. -/
theorem find_none {s : State} {addr : Nat} (h : ∀ e ∈ s.engines, e.covers addr = false) : s.find addr = none :=
  List.findIdx?_eq_none_iff.mpr h

theorem covers_iff {e : Engine} {addr : Nat} :
    e.covers addr = true ↔ e.params.base ≤ addr ∧ addr < e.params.base + 0x2100 := by
  unfold Engine.covers windowSize
  rw [Bool.and_eq_true, decide_eq_true_eq, decide_eq_true_eq]

/-- Wiring changes what is on the pins and nothing else. -/
theorem wire_frame (s : State) (e : Engine) : s.wire e = { e with attached := (s.wire e).attached } := by
  unfold State.wire
  split <;> rfl

@[simp] theorem wire_params (s : State) (e : Engine) : (s.wire e).params = e.params := by rw [wire_frame]
@[simp] theorem wire_ready (s : State) (e : Engine) : (s.wire e).ready = e.ready := by rw [wire_frame]
@[simp] theorem wire_xbuf (s : State) (e : Engine) : (s.wire e).xbuf = e.xbuf := by rw [wire_frame]
@[simp] theorem wire_cache (s : State) (e : Engine) : (s.wire e).cache = e.cache := by rw [wire_frame]

/-- No chip but an input chip is changed by wiring. -/
theorem wire_outputChip {s : State} {e : Engine} {c : OutputChip} (h : e.attached = .outputChip c) : s.wire e = e := by
  simp [State.wire, h]

theorem wire_line {s : State} {e : Engine} {ds : List Bool} (h : e.attached = .line ds) : s.wire e = e := by
  simp [State.wire, h]

theorem wire_inputChip {s : State} {e : Engine} {c : InputChip} (h : e.attached = .inputChip c) :
    (s.wire e).attached = .inputChip { c with inputs := s.wiredInputs e.params.n c } := by
  simp [State.wire, h]

/-- Where no input chip is looped back, the wiring changes nothing. -/
theorem wire_unlooped {s : State} {e : Engine} (h : ∀ c, e.attached = .inputChip c → c.loop = none) : s.wire e = e := by
  cases ha : e.attached with
  | line ds => exact wire_line ha
  | outputChip c => exact wire_outputChip ha
  | inputChip c =>
    have hl := h c ha
    cases c
    cases hl
    cases e
    cases ha
    rfl

/-- The loopback wiring (60_exceptions.md R220). -/
theorem wiredInputs_loop {s : State} {n j : Nat} {c : InputChip} {o : Engine} {q : OutputChip} (hl : c.loop = some j)
    (ho : s.engines[j]? = some o) (hq : o.attached = .outputChip q) (hn : o.params.n = n) :
    s.wiredInputs n c = q.storage := by
  simp [State.wiredInputs, hl, ho, hq, hn]

theorem select_eq {s : State} {k : Nat} {e : Engine} (h : s.engines[k]? = some e) :
    s.select k = { s with target := k, engines := s.engines.set k (s.wire e) } := by
  simp [State.select, h]

theorem select_current {s : State} {k : Nat} {e : Engine} (h : s.engines[k]? = some e) :
    (s.select k).current = some (s.wire e) := by
  have hlt := (List.getElem?_eq_some_iff.mp h).1
  rw [select_eq h]
  simp [State.current, hlt]

/-- Turning to an engine and putting one back replaces that engine. -/
theorem select_put {s : State} {k : Nat} {e : Engine} (h : s.engines[k]? = some e) (a : Engine) :
    (s.select k).put a = { s with target := k, engines := s.engines.set k a } := by
  rw [select_eq h]
  simp [State.put]

theorem illegal_eq {s : State} {e : Engine} (h : s.current = some e) : s.illegal = .next (s.put e.illegal) := by
  simp [State.illegal, h]

/-! A command written to CMD. -/

/-- A write to CMD on an engine that is there answers a next state, with that engine replaced. -/
theorem issue_cases {s t : State} {k : Nat} {kind : Kind} {w : Word} {e : Engine} (h : s.engines[k]? = some e)
    (hi : s.issue k kind w = .next t) :
    ∃ a, t = { s with target := k, engines := s.engines.set k a } ∧
      (a = (s.wire e).illegal ∨ ∃ i, decode kind w = .ok i ∧ a = resultOf i (s.wire e)) := by
  unfold State.issue at hi
  split at hi
  · rename_i i hd
    rw [exec_eq (select_current h)] at hi
    refine ⟨_, ?_, .inr ⟨i, hd, rfl⟩⟩
    rw [← select_put h]
    simpa using hi.symm
  · rw [illegal_eq (select_current h)] at hi
    refine ⟨_, ?_, .inl rfl⟩
    rw [← select_put h]
    simpa using hi.symm

/-- A write of a 32-bit word to the base address of an engine. -/
theorem perform_write_cmd {s : State} {k : Nat} {e : Engine} {w : Word} (hf : s.find e.params.base = some k)
    (hk : s.engines[k]? = some e) : State.perform (.write 32 e.params.base w) s = s.issue k e.params.kind w := by
  simp [State.perform, hf, hk]

/-- Any other write. -/
theorem perform_write_other {s : State} {bits addr k : Nat} {e : Engine} {w : Word} (hf : s.find addr = some k)
    (hk : s.engines[k]? = some e) (hn : ¬ (bits = 32 ∧ addr = e.params.base)) :
    State.perform (.write bits addr w) s = match e.hostWrite bits (addr - e.params.base) w with
      | none => .refused .badAccess
      | some e' => .next { s with engines := s.engines.set k e' } := by
  cases he : e.hostWrite bits (addr - e.params.base) w <;> simp [State.perform, hf, hk, hn, he]

theorem perform_read {s : State} {bits addr k : Nat} {e : Engine} (hf : s.find addr = some k)
    (hk : s.engines[k]? = some e) :
    State.perform (.read bits addr) s = match e.hostRead bits (addr - e.params.base) with
      | none => .refused .badAccess
      | some v => .next { s with busRead := some v } := by
  cases he : e.hostRead bits (addr - e.params.base) <;> simp [State.perform, hf, hk, he]

theorem hostWrite_cases {e e' : Engine} {bits off : Nat} {v : Word} (h : e.hostWrite bits off v = some e') :
    e' = e ∨ e' = e.memWrite (off - 0x0100) (v.extractLsb' 0 8) := by
  unfold Engine.hostWrite at h
  split at h
  · exact .inl (by simpa using h.symm)
  · split at h
    · split at h
      · exact .inr (by simpa using h.symm)
      · exact .inl (by simpa using h.symm)
    · cases h

/-- Everything an action can do that answers a next state: the engines stay, or one engine is replaced. -/
theorem perform_cases {a : Action} {s t : State} (h : State.perform a s = .next t) :
    (t.engines = s.engines ∧ t.pending = s.pending) ∨
    ∃ k e x, s.engines[k]? = some e ∧ a.engine s = some k ∧ t.engines = s.engines.set k x ∧ t.pending = s.pending ∧
      (x = (s.wire e).illegal ∨ (∃ i, x = resultOf i (s.wire e)) ∨ x = e ∨
        (∃ j v, x = e.memWrite j v) ∨ x = Engine.atReset e.params e.fresh e.attached ∨
        ∃ b, b.fits e.params = true ∧ x = { e with attached := b }) := by
  cases a with
  | write bits addr v =>
    simp only [State.perform] at h
    split at h
    · cases h
    · rename_i k hf
      split at h
      · cases h
      · rename_i e hk
        split at h
        · right
          obtain ⟨x, rfl, hx⟩ := issue_cases hk h
          refine ⟨k, e, x, hk, hf, rfl, rfl, ?_⟩
          rcases hx with hx | ⟨i, _, hx⟩
          · exact .inl hx
          · exact .inr (.inl ⟨i, hx⟩)
        · split at h
          · cases h
          · rename_i e' he
            right
            obtain rfl := by simpa using h.symm
            refine ⟨k, e, e', hk, hf, rfl, rfl, ?_⟩
            rcases hostWrite_cases he with hx | hx
            · exact .inr (.inr (.inl hx))
            · exact .inr (.inr (.inr (.inl ⟨_, _, hx⟩)))
  | read bits addr =>
    simp only [State.perform] at h
    split at h
    · cases h
    · split at h
      · cases h
      · split at h
        · cases h
        · obtain rfl := by simpa using h.symm
          exact .inl ⟨rfl, rfl⟩
  | reset k =>
    simp only [State.perform] at h
    split at h
    · cases h
    · rename_i e hk
      obtain rfl := by simpa using h.symm
      exact .inr ⟨k, e, _, hk, rfl, rfl, rfl, .inr (.inr (.inr (.inr (.inl rfl))))⟩
  | environment k b =>
    simp only [State.perform] at h
    split at h
    · cases h
    · rename_i e hk
      split at h
      · rename_i hb
        obtain rfl := by simpa using h.symm
        exact .inr ⟨k, e, _, hk, rfl, rfl, rfl, .inr (.inr (.inr (.inr (.inr ⟨b, hb, rfl⟩))))⟩
      · cases h

/-! The step. -/

theorem step_action {s : State} {a : Action} {rest : List Action} (ha : s.admitted = true) (hp : s.pending = a :: rest) :
    step s = State.perform a { s with pending := rest, busRead := none } := by
  simp [step, ha, hp]

/-- Everything a step that answers a next state can be. -/
theorem step_cases {s t : State} (h : step s = .next t) :
    s.admitted = true ∧ ((s.pending = [] ∧ t = s) ∨
      ∃ a rest, s.pending = a :: rest ∧ State.perform a { s with pending := rest, busRead := none } = .next t) := by
  unfold step at h
  split at h
  · rename_i ha
    refine ⟨ha, ?_⟩
    split at h
    · rename_i hp
      exact .inl ⟨hp, by simpa using h.symm⟩
    · rename_i a rest hp
      exact .inr ⟨a, rest, hp, h⟩
  · cases h

/-- In an admitted system every engine has N in range and a chip that fits. -/
theorem admitted_engine {s : State} (h : s.admitted = true) {e : Engine} (he : e ∈ s.engines) :
    1 ≤ e.params.n ∧ e.params.n ≤ 8192 ∧ e.attached.fits e.params = true := by
  simp only [State.admitted, Bool.and_eq_true, List.all_eq_true] at h
  have := h.1 e he
  simpa [Engine.admitted, Params.wellFormed, and_assoc] using this

/-- Replacing an engine by one of the same parameters leaves the parameters of the system. -/
theorem map_params_set {l : List Engine} {k : Nat} {e x : Engine} (hk : l[k]? = some e) (hp : x.params = e.params) :
    (l.set k x).map Engine.params = l.map Engine.params := by
  rw [List.map_set, hp]
  apply List.ext_getElem?
  intro j
  obtain ⟨h1, h2⟩ := List.getElem?_eq_some_iff.mp hk
  by_cases hj : k = j
  · subst hj; rw [List.getElem?_set_self (by simpa using h1)]; simp [hk]
  · rw [List.getElem?_set_ne hj]

/-- An admitted system stays admitted when an engine is replaced by one of the same parameters whose chip fits. -/
theorem admitted_set {s t : State} {k : Nat} {e x : Engine} (h : s.admitted = true) (hk : s.engines[k]? = some e)
    (hp : x.params = e.params) (hf : x.attached.fits e.params = true) (ht : t.engines = s.engines.set k x) :
    t.admitted = true := by
  have hw := admitted_engine h (List.mem_of_getElem? hk)
  simp only [State.admitted, Bool.and_eq_true, List.all_eq_true] at h ⊢
  rw [ht, map_params_set hk hp]
  refine ⟨fun y hy => ?_, h.2⟩
  rcases List.mem_or_eq_of_mem_set hy with h1 | rfl
  · exact h.1 _ h1
  · simp [Engine.admitted, Params.wellFormed, hp, hw, hf]

/-- Two engines of an admitted system are compatible (R225). -/
theorem compatible_of_allCompatible {ps : List Params} (h : allCompatible ps = true) : ∀ {i j : Nat} {p q : Params},
    i < j → ps[i]? = some p → ps[j]? = some q → Params.compatible p q = true := by
  induction ps with
  | nil => intro i j p q _ h; simp at h
  | cons x xs ih =>
    simp only [allCompatible, Bool.and_eq_true, List.all_eq_true] at h
    intro i j p q hij hi hj
    cases j with
    | zero => omega
    | succ j =>
      cases i with
      | zero =>
        simp at hi hj; subst hi
        exact h.1 _ (List.mem_of_getElem? hj)
      | succ i => simp at hi hj; exact ih h.2 (by omega) hi hj

/-- A host read that gives a value. -/
theorem step_read {s : State} {k off bits : Nat} {e : Engine} {rest : List Action} {v : Word} (ha : s.admitted = true)
    (hp : s.pending = .read bits (e.params.base + off) :: rest) (hf : s.find (e.params.base + off) = some k)
    (hk : s.engines[k]? = some e) (hr : e.hostRead bits off = some v) :
    step s = .next { s with pending := rest, busRead := some v } := by
  rw [step_action ha hp, perform_read (s := { s with pending := rest, busRead := none }) hf hk, Nat.add_sub_cancel_left, hr]

/-- Which engine an address finds depends on the parameters only. -/
theorem find_of_params {s t : State} (h : t.engines.map Engine.params = s.engines.map Engine.params) (addr : Nat) :
    t.find addr = s.find addr := by
  have key : ∀ u : State, u.find addr = (u.engines.map Engine.params).findIdx?
      fun p => decide (p.base ≤ addr) && decide (addr < p.base + windowSize) := by
    intro u
    rw [List.findIdx?_map]
    rfl
  rw [key t, key s, h]

end Sys2Proof.Machine
end

