-- ==== Sys2Proof/Laws/PerInstr.lean ====
section
/-! SUPPORT. The family Encoding: a command's word carries its opcode in [7:0] and nothing in the reserved bits of its format
(30_encoding.md R70, R71). -/

namespace Sys2Proof.Laws.Encoding

/-- What the family says of a command. -/
def Statement (i : Instr) : Prop := opField (encode i) = i.opcode ∧ encode i &&& i.format.reservedMask = 0#32

theorem inInit : Statement .inInit := ⟨by decide, by decide⟩
theorem inLoad : Statement .inLoad := ⟨by decide, by decide⟩
theorem inReadbyte : Statement .inReadbyte := ⟨by decide, by decide⟩
theorem inReadword : Statement .inReadword := ⟨by decide, by decide⟩
theorem outInit : Statement .outInit := ⟨by decide, by decide⟩
theorem outEnable : Statement .outEnable := ⟨by decide, by decide⟩
theorem outDisable : Statement .outDisable := ⟨by decide, by decide⟩
theorem outDeinit : Statement .outDeinit := ⟨by decide, by decide⟩

/-- The opcode is the low byte of the word. -/
theorem opField_append (x : BitVec 24) (op : Byte) : opField (x ++ op) = op := by
  apply BitVec.eq_of_getLsbD_eq
  intro j hj
  rw [opField, BitVec.getLsbD_extractLsb', BitVec.getLsbD_append]
  simp [hj]

/-- A word of a 16-bit operand has no bit above bit 23. -/
theorem reserved16 (x : Half) (op : Byte) : ((0#8 ++ x : BitVec 24) ++ op : Word) &&& 0xFF000000#32 = 0#32 := by
  apply BitVec.eq_of_getLsbD_eq
  intro j hj
  rw [BitVec.getLsbD_and, BitVec.getLsbD_append, BitVec.getLsbD_append]
  by_cases h : j < 24
  · have : BitVec.getLsbD 0xFF000000#32 j = false := by revert h; revert j; decide
    simp [this]
  · have h1 : ¬ j < 8 := by omega
    have h2 : ¬ j - 8 < 16 := by omega
    simp [h1, h2]

theorem inReadall (len : Nat) : Statement (.inReadall len) := ⟨opField_append _ _, reserved16 _ _⟩
theorem inReadbit (idx : Nat) : Statement (.inReadbit idx) := ⟨opField_append _ _, reserved16 _ _⟩
theorem outWriteword (data : Half) : Statement (.outWriteword data) := ⟨opField_append _ _, reserved16 _ _⟩
theorem outWriteall (len : Nat) : Statement (.outWriteall len) := ⟨opField_append _ _, reserved16 _ _⟩

theorem outWritebyte (data : Byte) : Statement (.outWritebyte data) := by
  refine ⟨opField_append _ _, ?_⟩
  apply BitVec.eq_of_getLsbD_eq
  intro j hj
  show BitVec.getLsbD (((0#16 ++ data : BitVec 24) ++ (0x14#8 : Byte) : Word) &&& 0xFFFF0000#32) j = _
  rw [BitVec.getLsbD_and, BitVec.getLsbD_append, BitVec.getLsbD_append]
  by_cases h : j < 16
  · have : BitVec.getLsbD 0xFFFF0000#32 j = false := by revert h; revert j; decide
    simp [this]
  · have h1 : ¬ j < 8 := by omega
    have h2 : ¬ j - 8 < 8 := by omega
    simp [h1, h2]

theorem outWritebit (idx : Nat) (v : Bool) : Statement (.outWritebit idx v) := by
  refine ⟨opField_append _ _, ?_⟩
  apply BitVec.eq_of_getLsbD_eq
  intro j hj
  show BitVec.getLsbD (((0#7 ++ (BitVec.ofBool v ++ BitVec.ofNat 16 idx) : BitVec 24) ++ (0x17#8 : Byte) : Word)
    &&& 0xFE000000#32) j = _
  rw [BitVec.getLsbD_and, BitVec.getLsbD_append, BitVec.getLsbD_append, BitVec.getLsbD_append]
  by_cases h : j < 25
  · have : BitVec.getLsbD 0xFE000000#32 j = false := by revert h; revert j; decide
    simp [this]
  · have h1 : ¬ j < 8 := by omega
    have h2 : ¬ j - 8 < 17 := by omega
    simp [h1, h2]

end Sys2Proof.Laws.Encoding
end

