-- ==== Sys2Proof/Laws/Decode.lean ====
section
/-! SUPPORT. Words and their fields (30_encoding.md R70 to R77): a word is fixed by its opcode and its operand bits, a reserved bit
of a legal word is 0, and a count read back from a word is the count. -/

namespace Sys2Proof

/-- A bit of a mask that a word has no bit in common with is 0 in the word. -/
theorem bit_of_mask {w m : Word} (h : w &&& m = 0#32) {j : Nat} (hm : m.getLsbD j = true) : w.getLsbD j = false := by
  have := congrArg (fun x => BitVec.getLsbD x j) h
  simpa [hm] using this

/-- A word is the word of a command whose opcode and operand bits it has. -/
theorem word_eq {w : Word} {i : Instr} (hop : opField w = i.opcode)
    (hb : ∀ j, j < 24 → i.operandBits.getLsbD j = w.getLsbD (j + 8)) : encode i = w := by
  apply BitVec.eq_of_getLsbD_eq
  intro j hj
  unfold encode
  rw [BitVec.getLsbD_append]
  by_cases h : j < 8
  · have := congrArg (fun x => BitVec.getLsbD x j) hop
    simp only [opField, BitVec.getLsbD_extractLsb', h, decide_true, Bool.true_and, Nat.zero_add] at this
    simp [h, this]
  · have := hb (j - 8) (by omega)
    rw [if_neg h, this]; congr 1; omega

theorem mask_hi : ∀ j, 24 ≤ j → j < 32 → BitVec.getLsbD 0xFF000000#32 j = true := by decide
theorem mask_16 : ∀ j, j < 32 → 16 ≤ j →  BitVec.getLsbD 0xFFFF0000#32 j = true := by decide
theorem mask_25 : ∀ j, j < 32 → 25 ≤ j →  BitVec.getLsbD 0xFE000000#32 j = true := by decide
theorem mask_8 : ∀ j, j < 32 → 8 ≤ j →  BitVec.getLsbD 0xFFFFFF00#32 j = true := by decide

/-- Format N: no operand bits. -/
theorem bits_n {w : Word} (h : w &&& 0xFFFFFF00#32 = 0#32) : ∀ j, j < 24 → (0#24).getLsbD j = w.getLsbD (j+8) := by
  intro j hj
  rw [bit_of_mask h (mask_8 _ (by omega) (by omega))]; simp

/-- Formats D16, L and B: 16 operand bits, then zeros. -/
theorem bits_d16 {w : Word} (h : w &&& 0xFF000000#32 = 0#32) :
    ∀ j, j < 24 → (0#8 ++ data16Field w : BitVec 24).getLsbD j = w.getLsbD (j+8) := by
  intro j hj
  rw [BitVec.getLsbD_append]
  by_cases h1 : j < 16
  · simp [h1, data16Field, Nat.add_comm]
  · rw [bit_of_mask h (mask_hi _ (by omega) (by omega))]; simp [h1]

/-- Format D8: 8 operand bits, then zeros. -/
theorem bits_d8 {w : Word} (h : w &&& 0xFFFF0000#32 = 0#32) :
    ∀ j, j < 24 → (0#16 ++ data8Field w : BitVec 24).getLsbD j = w.getLsbD (j+8) := by
  intro j hj
  rw [BitVec.getLsbD_append]
  by_cases h1 : j < 8
  · simp [h1, data8Field, Nat.add_comm]
  · rw [bit_of_mask h (mask_16 _ (by omega) (by omega))]; simp [h1]

/-- Format BV: 16 operand bits, V, then zeros. -/
theorem bits_bv {w : Word} (h : w &&& 0xFE000000#32 = 0#32) :
    ∀ j, j < 24 → (0#7 ++ (BitVec.ofBool (valueField w) ++ data16Field w) : BitVec 24).getLsbD j = w.getLsbD (j+8) := by
  intro j hj
  rw [BitVec.getLsbD_append, BitVec.getLsbD_append]
  by_cases h1 : j < 16
  · have : j < 17 := by omega
    simp [h1, this, data16Field, Nat.add_comm]
  · by_cases h2 : j = 16
    · subst h2; simp [valueField]
    · rw [bit_of_mask h (mask_25 _ (by omega) (by omega))]
      have : ¬ j < 17 := by omega
      simp [this]

/-- LEN or IDX put back into its field is the field. -/
theorem count_ofNat (w : Word) : BitVec.ofNat 16 (countField w) = data16Field w := by
  unfold countField data16Field
  exact BitVec.ofNat_toNat _ _ |>.trans (by simp)

/-- The family Encoding, for every command. -/
theorem encoding_all (i : Instr) : Laws.Encoding.Statement i :=
  match i with
  | .inInit => Laws.Encoding.inInit
  | .inLoad => Laws.Encoding.inLoad
  | .inReadbyte => Laws.Encoding.inReadbyte
  | .inReadword => Laws.Encoding.inReadword
  | .inReadall _ => Laws.Encoding.inReadall _
  | .inReadbit _ => Laws.Encoding.inReadbit _
  | .outInit => Laws.Encoding.outInit
  | .outEnable => Laws.Encoding.outEnable
  | .outDisable => Laws.Encoding.outDisable
  | .outWritebyte _ => Laws.Encoding.outWritebyte _
  | .outWriteword _ => Laws.Encoding.outWriteword _
  | .outWriteall _ => Laws.Encoding.outWriteall _
  | .outWritebit _ _ => Laws.Encoding.outWritebit _ _
  | .outDeinit => Laws.Encoding.outDeinit

/-- The opcode of the word of a command. -/
theorem opField_encode (i : Instr) : opField (encode i) = i.opcode := Laws.Encoding.opField_append _ _

/-- LEN or IDX read from the word it was put into. -/
theorem count_encode16 (x : Nat) (h : x < 65536) (op : Byte) :
    countField (((0#8 ++ BitVec.ofNat 16 x : BitVec 24) ++ op : Word)) = x := by
  unfold countField
  have : BitVec.extractLsb' 8 16 ((0#8 ++ BitVec.ofNat 16 x : BitVec 24) ++ op : Word) = BitVec.ofNat 16 x := by
    apply BitVec.eq_of_getLsbD_eq
    intro j hj
    rw [BitVec.getLsbD_extractLsb', BitVec.getLsbD_append, BitVec.getLsbD_append]
    simp [hj]
  rw [this]; simp; omega

end Sys2Proof
end

