-- ==== Sys2Proof/Laws/Invariant.lean ====
section
/-! SUPPORT. The invariants of one engine (10_state.md R37) through everything that can happen to it: a command, an illegal word, a
write of an XBUF byte, a reset, a change of what is on its pins, and the loopback wiring. -/

namespace Sys2Proof.Machine

/-- A command keeps the invariants of its engine. -/
theorem result_inv {e : Engine} (h : e.Inv) (hn : 1 ≤ e.params.n) (i : Instr) : (resultOf i e).Inv := by
  have hfx : ∀ evs : List Event, (e.begin.emits evs).attached.fits e.params = true := fun evs =>
    emits_fits evs (e := e.begin) hn h.attached_fits
  rcases result_cases i e with ⟨hk, hr⟩ | ⟨hk, hi', hr', hr⟩ | ⟨hk, hi', hr⟩ | ⟨hk, hi', evs, hr⟩
  · rw [hr]
    exact ⟨h.xbuf_length, h.other_kind, ⟨.badCommand, rfl⟩, h.rdata_high, h.lines, h.attached_fits⟩
  · rw [hr]
    exact ⟨h.xbuf_length, h.other_kind, ⟨.notReady, rfl⟩, h.rdata_high, h.lines, h.attached_fits⟩
  · have hx := hr.eq
    obtain ⟨c, hc⟩ := own_codes i e.begin
    generalize resultOf i e = x at *
    constructor
    · rw [hx]; exact h.xbuf_length
    · have := h.other_kind
      rw [hx]
      unfold Engine.otherKindUnused at *
      cases hk2 : e.params.kind
      · simpa [hk2] using this
      · simp only [hk2] at this
        simp [hk2, this]
        exact this.2.2
    · exact ⟨c, by rw [hx]; exact hc⟩
    · rw [hx]
      simp only
      split
      · rfl
      · exact h.rdata_high
    · intro hrd
      have h1 : e.ready = true := by
        rw [hx] at hrd
        simp only at hrd
        split at hrd
        · cases hrd
        · exact hrd
      have := h.lines h1
      rw [hx]; exact this
    · rw [hx]; exact h.attached_fits
  · have hx := hr.eq
    have hp := result_params i e
    have ho := h.other_kind
    have hl := emits_other_levels e.params.delayUnit evs e.begin
    have hev := hr.allowed
    have e1 := hr.rdata_same
    have e2 := hr.rdata_high
    have e3 := hr.xbuf_length h.xbuf_length
    have e4 := hr.cache_same
    have e5 := hr.cache_length
    have e6 := hr.lines hn
    generalize resultOf i e = x at *
    have hst : x.status = 0#32 := by rw [hx]
    constructor
    · rw [hp]; exact e3
    · unfold Engine.otherKindUnused at *
      rw [hp]
      cases hk2 : e.params.kind
      · simp only [hk2] at ho ⊢
        have hik : i.kind = .iec := by rw [← hk, hk2]
        rw [hik] at hev
        obtain ⟨a, b, c⟩ := hl.1 hev
        refine ⟨?_, ?_, ?_, ?_⟩
        · rw [e4 (by cases i <;> simp [Instr.kind] at hik <;> rfl)]; exact ho.1
        · rw [hx]; exact a.trans ho.2.1
        · rw [hx]; exact b.trans ho.2.2.1
        · rw [hx]; exact c.trans ho.2.2.2
      · simp only [hk2] at ho ⊢
        have hik : i.kind = .oec := by rw [← hk, hk2]
        rw [hik] at hev
        have a := hl.2 hev
        refine ⟨?_, ?_, ?_⟩
        · rw [hx]; exact a.trans ho.1
        · rw [e1 (by cases i <;> simp [Instr.kind] at hik <;> rfl)]; exact ho.2.1
        · by_cases hw : writesChain i = true
          · exact e5 hw h.xbuf_length ho.2.2
          · rw [e4 (by simpa using hw)]; exact ho.2.2
    · exact ⟨.ok, hst⟩
    · by_cases hw : writesRdata i = true
      · exact e2 hw
      · rw [e1 (by simpa using hw)]; exact h.rdata_high
    · intro _
      have := e6 (by
        rcases hi' with hh | hh
        · exact .inl hh
        · exact .inr (h.lines hh)) hk
      rw [hx]
      unfold Engine.linesDriven at *
      exact this
    · rw [hp, hx]; exact hfx evs

/-- What fits may be attached. -/
theorem with_attached_inv {e : Engine} (h : e.Inv) {a : Attached} (ha : a.fits e.params = true) :
    Engine.Inv { e with attached := a } :=
  ⟨h.xbuf_length, h.other_kind, h.status_code, h.rdata_high, h.lines, ha⟩

theorem illegal_inv {e : Engine} (h : e.Inv) : e.illegal.Inv :=
  ⟨h.xbuf_length, h.other_kind, ⟨.badCommand, rfl⟩, h.rdata_high, h.lines, h.attached_fits⟩

theorem memWrite_inv {e : Engine} (h : e.Inv) (k : Nat) (v : Byte) : (e.memWrite k v).Inv :=
  ⟨memWrite_wf h.xbuf_length k v, h.other_kind, h.status_code, h.rdata_high, h.lines, h.attached_fits⟩

theorem atReset_inv (p : Params) (f : Nat) {a : Attached} (h : a.fits p = true) : (Engine.atReset p f a).Inv := by
  refine ⟨atReset_xbuf_wf p f a, ?_, ⟨.ok, rfl⟩,
    (by show BitVec.extractLsb' 16 16 0#32 = 0#16; decide), (fun h => by cases h), h⟩
  unfold Engine.otherKindUnused Engine.atReset
  cases p.kind
  · exact ⟨rfl, rfl, rfl, rfl⟩
  · exact ⟨rfl, rfl, by simp [Memory.wf]⟩

/-- The inputs that the wiring gives have the chip's width. -/
theorem wire_fits {s : State} (hs : ∀ e ∈ s.engines, e.attached.fits e.params = true) {e : Engine}
    (he : e.attached.fits e.params = true) :
    (s.wire e).attached.fits e.params = true := by
  unfold State.wire
  split
  · exact he
  · rename_i c hc
    rw [hc] at he
    simp only [Attached.fits, Bool.and_eq_true, decide_eq_true_eq] at he ⊢
    refine ⟨⟨he.1.1, ?_⟩, he.2⟩
    unfold State.wiredInputs
    split
    · exact he.1.2
    · rename_i j hj
      split
      · exact he.1.2
      · rename_i o ho
        split
        · exact he.1.2
        · exact he.1.2
        · rename_i q hq
          split
          · rename_i hn
            have := hs o (List.mem_of_getElem? ho)
            rw [hq] at this
            simp only [Attached.fits, Bool.and_eq_true, decide_eq_true_eq] at this
            rw [← hn]; exact this.2
          · exact he.1.2
  · exact he

theorem wire_inv {s : State} (hs : s.Inv) {e : Engine} (he : e.Inv) : (s.wire e).Inv := by
  rw [wire_frame]
  exact with_attached_inv he (wire_fits (fun e h => (hs e h).attached_fits) he.attached_fits)

/-- A step leaves a system that the model admits. -/
theorem admitted_of_step {s t : State} (h : step s = .next t) : t.admitted = true := by
  obtain ⟨hadm, ⟨_, rfl⟩ | ⟨a, rest, hp, h⟩⟩ := step_cases h
  · exact hadm
  · rcases perform_cases h with ⟨he, _⟩ | ⟨k, e, x, hk, _, he, _, hx⟩
    · unfold State.admitted at *; rw [he]; exact hadm
    · have hk : s.engines[k]? = some e := hk
      have hm := admitted_engine hadm (List.mem_of_getElem? hk)
      have hw : ∀ r, (State.wire { s with pending := r, busRead := none } e).attached.fits e.params = true := fun r =>
        wire_fits (s := { s with pending := r, busRead := none }) (fun e h => (admitted_engine hadm h).2.2) hm.2.2
      refine admitted_set hadm hk (x := x) ?_ ?_ he
      · rcases hx with rfl | ⟨i, rfl⟩ | rfl | ⟨j, v, rfl⟩ | rfl | ⟨b, hb, rfl⟩
        · exact wire_params _ _
        · rw [result_params, wire_params]
        · rfl
        · rfl
        · rfl
        · rfl
      · rcases hx with rfl | ⟨i, rfl⟩ | rfl | ⟨j, v, rfl⟩ | rfl | ⟨b, hb, rfl⟩
        · exact hw _
        · have hw' := hw rest
          have hwp : (State.wire { s with pending := rest, busRead := none } e).params = e.params := wire_params _ _
          have hn : 1 ≤ e.params.n := hm.1
          generalize State.wire { s with pending := rest, busRead := none } e = y at *
          rw [← hwp] at hw' hn ⊢
          rcases result_cases i y with ⟨hk, hr⟩ | ⟨hk, hi, hr', hr⟩ | ⟨hk, hi, hr⟩ | ⟨hk, hi, evs, hr⟩
          · rw [hr]; exact hw'
          · rw [hr]; exact hw'
          · rw [hr.eq]; exact hw'
          · rw [hr.eq]; exact emits_fits evs (e := y.begin) hn hw'
        · exact hm.2.2
        · exact hm.2.2
        · exact hm.2.2
        · exact hb

end Sys2Proof.Machine
end

