-- ==== Sys2Proof/Laws/Status.lean ====
section
/-! SUPPORT. STATUS is written and never read (10_state.md R34): every procedure and every body does the same on an engine with another
STATUS. -/

namespace Sys2Proof.Machine

/-- An engine with another STATUS. -/
def withStatus (x : Word) (e : Engine) : Engine := { e with status := x }
theorem emit_withStatus (x : Word) (e : Engine) (ev) :
    (withStatus x e).emit ev = withStatus x (e.emit ev) := by cases ev <;> rfl
theorem wait_withStatus (x : Word) (e : Engine) : (withStatus x e).wait = withStatus x e.wait := emit_withStatus _ _ _
theorem loadPulse_withStatus (x : Word) (e : Engine) : (withStatus x e).loadPulse = withStatus x e.loadPulse := by
  simp [Engine.loadPulse, emit_withStatus, wait_withStatus]
theorem clockPulse_withStatus (x : Word) (e : Engine) : (withStatus x e).clockPulse = withStatus x e.clockPulse := by
  simp [Engine.clockPulse, emit_withStatus, wait_withStatus]
theorem latchPulse_withStatus (x : Word) (e : Engine) : (withStatus x e).latchPulse = withStatus x e.latchPulse := by
  simp [Engine.latchPulse, emit_withStatus, wait_withStatus]
theorem shiftStep_withStatus (x : Word) (e : Engine) (b) :
    (withStatus x e).shiftStep b = withStatus x (e.shiftStep b) := by
  simp [Engine.shiftStep, emit_withStatus, clockPulse_withStatus]
theorem dataLine_withStatus (x : Word) (e : Engine) : (withStatus x e).dataLine = e.dataLine := rfl
theorem sampleStep_withStatus (x : Word) (e : Engine) :
    (withStatus x e).sampleStep = (e.sampleStep.1, withStatus x e.sampleStep.2) := by
  simp [Engine.sampleStep, Engine.sample, emit_withStatus, clockPulse_withStatus, dataLine_withStatus]
theorem clockPulses_withStatus (x : Word) (p) :
    ∀ e : Engine, Engine.clockPulses p (withStatus x e) = withStatus x (Engine.clockPulses p e) := by
  induction p with
  | zero => intro e; rfl
  | succ p ih => intro e; rw [Engine.clockPulses, clockPulse_withStatus, ih]; rfl
theorem shiftOut_withStatus (x : Word) (bs) :
    ∀ e : Engine, Engine.shiftOut bs (withStatus x e) = withStatus x (Engine.shiftOut bs e) := by
  induction bs with
  | nil => intro e; rfl
  | cons b bs ih => intro e; rw [Engine.shiftOut, shiftStep_withStatus, ih]; rfl
theorem readBits_withStatus (x : Word) (m) :
    ∀ (b) (e : Engine), Engine.readBits m b (withStatus x e) = ((Engine.readBits m b e).1, withStatus x (Engine.readBits m b e).2) := by
  induction m with
  | zero => intro b e; rfl
  | succ m ih => intro b e; rw [Engine.readBits, sampleStep_withStatus, ih]; rfl
theorem readChain_withStatus (x : Word) (m) :
    ∀ (e : Engine), Engine.readChain m (withStatus x e) = ((Engine.readChain m e).1, withStatus x (Engine.readChain m e).2) := by
  induction m with
  | zero => intro e; rfl
  | succ m ih => intro e; simp only [Engine.readChain, readBits_withStatus, ih]
theorem fullWrite_withStatus (x : Word) (e : Engine) : (withStatus x e).fullWrite = withStatus x e.fullWrite := by
  unfold Engine.fullWrite
  rw [show (withStatus x e).params = e.params from rfl, show (withStatus x e).cache = e.cache from rfl, shiftOut_withStatus, latchPulse_withStatus]
theorem finish_withStatus (x : Word) (e : Engine) (c) : (withStatus x e).finish c = e.finish c := rfl
theorem memWriteAll_withStatus (x : Word) (bs) :
    ∀ (k) (e : Engine), Engine.memWriteAll k bs (withStatus x e) = withStatus x (Engine.memWriteAll k bs e) := by
  induction bs with
  | nil => intro k e; rfl
  | cons b bs ih => intro k e; exact ih (k+1) (e.memWrite k b)

theorem fullWrite_finish_withStatus (x : Word) (e : Engine) (c) :
    Engine.finish .ok (Engine.fullWrite { withStatus x e with cache := c }) = Engine.finish .ok (Engine.fullWrite { e with cache := c }) := by
  rw [show ({ withStatus x e with cache := c } : Engine) = withStatus x { e with cache := c } from rfl, fullWrite_withStatus]; rfl

/-- No body reads STATUS (10_state.md R34). -/
theorem body_withStatus (x : Word) (i : Instr) (e : Engine) : bodyOf i (withStatus x e) = bodyOf i e := by
  have hp : (withStatus x e).params = e.params := rfl
  have hc : (withStatus x e).cache = e.cache := rfl
  cases i with
  | inInit => simp only [bodyOf, Engine.inInit, hp, emit_withStatus]; rfl
  | inLoad => simp only [bodyOf, Engine.inLoad, loadPulse_withStatus, finish_withStatus]
  | inReadbyte => simp only [bodyOf, Engine.inReadbyte, hp, loadPulse_withStatus, readChain_withStatus]; rfl
  | inReadword => simp only [bodyOf, Engine.inReadword, hp, loadPulse_withStatus, readChain_withStatus]; rfl
  | inReadall len => simp only [bodyOf, Engine.inReadall, hp, loadPulse_withStatus, readChain_withStatus, memWriteAll_withStatus, finish_withStatus]
  | inReadbit idx => simp only [bodyOf, Engine.inReadbit, hp, loadPulse_withStatus, clockPulses_withStatus, Engine.sample, emit_withStatus, dataLine_withStatus]; rfl
  | outInit =>
    cases hcap : capabilitiesPresent .oec e.params.bound with
    | false => simp only [bodyOf]; rw [outInit_fail hcap, outInit_fail (e := withStatus x e) hcap]; rfl
    | true =>
      simp only [bodyOf]
      rw [outInit_ok hcap, outInit_ok (e := withStatus x e) hcap]
      have h1 : (withStatus x e).emits outInitEvents = withStatus x (e.emits outInitEvents) := by simp [outInitEvents, emit_withStatus]
      rw [h1, hp]
      generalize e.emits outInitEvents = y
      rw [show ∀ c, ({ withStatus x y with cache := c } : Engine) = withStatus x { y with cache := c } from fun _ => rfl, fullWrite_withStatus]; rfl
  | outEnable => simp only [bodyOf, Engine.outEnable, emit_withStatus, finish_withStatus]
  | outDisable => simp only [bodyOf, Engine.outDisable, emit_withStatus, finish_withStatus]
  | outDeinit => simp only [bodyOf, Engine.outDeinit, emit_withStatus, finish_withStatus]
  | outWritebyte d =>
    show (if e.params.n = 1 then
        Engine.finish .ok (Engine.fullWrite { withStatus x e with cache := setArrayByte e.cache 0 d })
      else e.finish .lengthMismatch) = _
    rw [fullWrite_finish_withStatus]; rfl
  | outWriteword d =>
    show (if e.params.n = 2 then
        Engine.finish .ok (Engine.fullWrite
          { withStatus x e with cache := setArrayByte (setArrayByte e.cache 0 (lowByte d)) 1 (highByte d) })
      else e.finish .lengthMismatch) = _
    rw [fullWrite_finish_withStatus]; rfl
  | outWriteall d =>
    show (if d = e.params.n then
        Engine.finish .ok (Engine.fullWrite
          { withStatus x e with cache := (List.range e.params.n).map fun c => e.memRead c })
      else e.finish .lengthMismatch) = _
    rw [fullWrite_finish_withStatus]; rfl
  | outWritebit d v =>
    show (if outOfRange e.params.n d then e.finish .rangeError
      else if arrayBit e.cache d = v then e.finish .unchanged
      else Engine.finish .ok (Engine.fullWrite { withStatus x e with cache := setArrayBit e.cache d v })) = _
    rw [fullWrite_finish_withStatus]; rfl

end Sys2Proof.Machine
end

