-- ==== Sys2Proof/Tests/Slice0.lean ====
section
/-! SUPPORT. Tests: the well-formedness checks with an ill-formed term for each; a word of every command written out from the formats
of 30_encoding.md R71; one step of each command with the result that spec/95_test_vectors.md gives (the vector is named in each
comment); and, for every statement with hypotheses, a witness that meets them. -/

namespace Sys2Proof.Tests

open Sys2Proof Sys2Proof.Machine

/- One theorem after the other: a thread for each would not fit the memory limit of the whole package. -/
set_option Elab.async false

/-! Well-formedness. -/

theorem test_wf_inReadall : (Instr.inReadall 65535).wellFormed = true ∧ (Instr.inReadall 65536).wellFormed = false := by decide
theorem test_wf_inReadbit : (Instr.inReadbit 65535).wellFormed = true ∧ (Instr.inReadbit 65536).wellFormed = false := by decide
theorem test_wf_outWriteall : (Instr.outWriteall 65535).wellFormed = true ∧ (Instr.outWriteall 65536).wellFormed = false := by
  decide
theorem test_wf_outWritebit :
    (Instr.outWritebit 65535 true).wellFormed = true ∧ (Instr.outWritebit 65536 false).wellFormed = false := by decide

/-! States for the tests: one engine alone, its data line carrying `ds`. -/

def paramsOf (k : Kind) (n : Nat) : Params where
  kind := k
  n := n
  delayUnit := 7
  bound := Config.allBound
  base := 0x4000
  lines := [0, 1]

theorem test_wf_params : (paramsOf .iec 1).wellFormed = true ∧ (paramsOf .oec 8192).wellFormed = true ∧
    (paramsOf .iec 0).wellFormed = false ∧ (paramsOf .oec 8193).wellFormed = false := by decide

/-- An engine after reset. -/
def fresh (k : Kind) (n : Nat) : Engine := Engine.atReset (paramsOf k n) 0 (.line [])

/-- A ready IEC, its lines as IN.INIT leaves them, XBUF all zero. -/
def iec (n : Nat) (a : Attached) : Engine :=
  { Engine.atReset (paramsOf .iec n) 0 a with
    ready := true, loadQ := .low, clkQ := .low, xbuf := List.replicate n 0x00#8 }

/-- A ready OEC, its lines as OUT.INIT leaves them, with the given CACHE and XBUF. -/
def oec (cache xbuf : List Byte) (a : Attached) : Engine :=
  { Engine.atReset (paramsOf .oec cache.length) 0 a with
    ready := true, dataQ := .low, clkQ := .high, latchQ := .low, oeQ := .low, cache := cache, xbuf := xbuf }

def alone (e : Engine) : State where
  engines := [e]
  target := 0
  pending := []
  busRead := none

/-- The engine after one command on it. -/
def after (i : Instr) (e : Engine) : Option Engine :=
  match exec i (alone e) with
  | .next t => t.current
  | .fault _ => none
  | .refused _ => none

/-- The engine after one step with this action to come. -/
def afterAction (a : Action) (e : Engine) : Option Engine :=
  match step { alone e with pending := [a] } with
  | .next t => t.current
  | .fault _ => none
  | .refused _ => none

/-- What a read action returns; `none` where it is refused. -/
def readBack (a : Action) (e : Engine) : Option Word :=
  match step { alone e with pending := [a] } with
  | .next t => t.busRead
  | .fault _ => none
  | .refused _ => none

/-- Bits written as numbers. -/
def bits (l : List Nat) : List Bool := l.map fun b => b == 1

/-! Decoding: a word of every command, written out from R71 and R73. -/

theorem test_decode_inInit : decode .iec 0b00000000_00000000_00000000_00000001#32 = .ok .inInit := by decide
theorem test_decode_inLoad : decode .iec 0b00000000_00000000_00000000_00000010#32 = .ok .inLoad := by decide
theorem test_decode_inReadbyte : decode .iec 0b00000000_00000000_00000000_00000011#32 = .ok .inReadbyte := by decide
theorem test_decode_inReadword : decode .iec 0b00000000_00000000_00000000_00000100#32 = .ok .inReadword := by decide
theorem test_decode_inReadall : decode .iec 0b00000000_00000001_00000011_00000101#32 = .ok (.inReadall 0x0103) := by decide
theorem test_decode_inReadbit : decode .iec 0b00000000_10000000_00001001_00000110#32 = .ok (.inReadbit 0x8009) := by decide
theorem test_decode_outInit : decode .oec 0b00000000_00000000_00000000_00010001#32 = .ok .outInit := by decide
theorem test_decode_outEnable : decode .oec 0b00000000_00000000_00000000_00010010#32 = .ok .outEnable := by decide
theorem test_decode_outDisable : decode .oec 0b00000000_00000000_00000000_00010011#32 = .ok .outDisable := by decide
theorem test_decode_outWritebyte :
    decode .oec 0b00000000_00000000_10110010_00010100#32 = .ok (.outWritebyte 0xB2#8) := by decide
theorem test_decode_outWriteword :
    decode .oec 0b00000000_00010010_00110100_00010101#32 = .ok (.outWriteword 0x1234#16) := by decide
theorem test_decode_outWriteall : decode .oec 0b00000000_00000000_00000011_00010110#32 = .ok (.outWriteall 3) := by decide
theorem test_decode_outWritebit :
    decode .oec 0b00000001_00000000_00001111_00010111#32 = .ok (.outWritebit 15 true) := by decide
theorem test_decode_outDeinit : decode .oec 0b00000000_00000000_00000000_00011000#32 = .ok .outDeinit := by decide

/-- V14: no command of an IEC. -/
theorem test_decode_illegal_iec : decode .iec 0x00000000#32 = .error .opcode ∧ decode .iec 0x00000007#32 = .error .opcode ∧
    decode .iec 0x00000011#32 = .error .opcode ∧ decode .iec 0x00000101#32 = .error .reservedField ∧
    decode .iec 0x01000006#32 = .error .reservedField ∧ decode .iec 0x80000005#32 = .error .reservedField := by decide

/-- V15: no command of an OEC. -/
theorem test_decode_illegal_oec : decode .oec 0x00000001#32 = .error .opcode ∧ decode .oec 0x0000001D#32 = .error .opcode ∧
    decode .oec 0x02000017#32 = .error .reservedField ∧ decode .oec 0x00010014#32 = .error .reservedField ∧
    decode .oec 0x00000112#32 = .error .reservedField := by decide

/-- R80: the words of the pseudo-instructions. -/
theorem test_pseudo : encode (Instr.outSet 3) = 0x01000317#32 ∧ encode (Instr.outClr 3) = 0x00000317#32 ∧
    encode (Instr.inReadallN 3) = 0x00000305#32 ∧ encode (Instr.outWriteallN 3) = 0x00000316#32 := by decide

/-! One step of each command. -/

/-- V20. -/
theorem test_inInit : (after .inInit (fresh .iec 1)).map Engine.trace = some [.gpioInit, .setClock false, .setLoad false] := by
  decide +kernel

/-- V2, the delay primitive omitted. -/
theorem test_inInit_unbound :
    (after .inInit { iec 1 (.line []) with params := { paramsOf .iec 1 with bound := { Config.allBound with delay := false } } }).map
      (fun e => (e.status, e.ready, e.trace)) = some (0x04#32, false, []) := by decide +kernel

/-- V22. -/
theorem test_inLoad : (after .inLoad (iec 1 (.line []))).map (fun e => (e.trace, e.clkQ)) =
    some ([.setLoad true, .delay 7, .setLoad false, .delay 7], .low) := by decide +kernel

/-- V23. -/
theorem test_inReadbyte :
    (after .inReadbyte (iec 1 (.line (bits [1, 0, 1, 1, 0, 0, 1, 0])))).map Engine.rdata = some 0x000000B2#32 := by
  decide +kernel

/-- V23, N = 2. -/
theorem test_inReadbyte_mismatch : (after .inReadbyte { iec 2 (.line []) with rdata := 0x0FA5#32 }).map
    (fun e => (e.status, e.rdata)) = some (0x02#32, 0#32) := by decide +kernel

/-- V24. -/
theorem test_inReadword :
    (after .inReadword (iec 2 (.line (bits [0, 0, 1, 1, 0, 1, 0, 0, 0, 0, 0, 1, 0, 0, 1, 0])))).map Engine.rdata =
      some 0x00001234#32 := by decide +kernel

/-- V24: the first sample is bit 7. -/
theorem test_inReadword_first :
    (after .inReadword (iec 2 (.line (bits [1, 0, 0, 0, 0, 0, 0, 0, 0, 0, 0, 0, 0, 0, 0, 0])))).map Engine.rdata =
      some 0x00000080#32 := by decide +kernel

/-- V25. -/
theorem test_inReadall :
    (after (.inReadall 3) (iec 3 (.line (bits [1, 0, 1, 0, 0, 1, 0, 1, 0, 0, 0, 0, 1, 1, 1, 1, 1, 0, 0, 0, 0, 0, 0, 0])))).map
      (fun e => (e.xbuf, e.trace.length)) = some ([0xA5#8, 0x0F#8, 0x80#8], 124) := by decide +kernel

/-- V46. -/
theorem test_inReadall_mismatch : (after (.inReadall 1) { iec 2 (.line []) with rdata := 0x0FA5#32 }).map
    (fun e => (e.status, e.rdata)) = some (0x02#32, 0x0FA5#32) := by decide +kernel

/-- V26: IDX 9 takes 14 clock pulses. -/
theorem test_inReadbit : (after (.inReadbit 9) (iec 2 (.line [true]))).map
    (fun e => (e.rdata, e.trace.length, delaysIn e.trace, e.clkQ)) = some (1#32, 61, 30, .high) := by decide +kernel

/-- V27, on the reference input chip with inputs 0x01, 0x80, 0xFF: IDX 15 reads 1. -/
theorem test_inReadbit_chip :
    (after (.inReadbit 15) (iec 3 (.inputChip {
      inputs := bits [1, 0, 0, 0, 0, 0, 0, 0, 0, 0, 0, 0, 0, 0, 0, 1, 1, 1, 1, 1, 1, 1, 1, 1]
      shift := List.replicate 24 false, clk := .low, loop := none }))).map Engine.rdata = some 1#32 := by decide +kernel

/-- V30. -/
theorem test_outInit : (after .outInit (fresh .oec 1)).map
    (fun e => (e.status, e.ready, e.cache, e.trace.length, delaysIn e.trace)) = some (0x00#32, true, [0x00#8], 49, 18) := by
  decide +kernel

/-- V30, the levels. -/
theorem test_outInit_levels : (after .outInit (fresh .oec 1)).map (fun e => (e.dataQ, e.clkQ, e.latchQ, e.oeQ)) =
    some (.low, .high, .low, .low) := by decide +kernel

/-- V32. -/
theorem test_outEnable : (after .outEnable (oec [0xFF#8, 0xFF#8] [] (.line []))).map (fun e => (e.trace, e.oeQ)) =
    some ([.setOutputEnable true], .high) := by decide +kernel

/-- V32. -/
theorem test_outDisable : (after .outDisable { oec [0xFF#8, 0xFF#8] [] (.line []) with oeQ := .high }).map
    (fun e => (e.trace, e.oeQ)) = some ([.setOutputEnable false], .low) := by decide +kernel

/-- V32: READY and CACHE stay. -/
theorem test_outDeinit : (after .outDeinit (oec [0xFF#8, 0xFF#8] [] (.line []))).map
    (fun e => (e.trace, e.ready, e.cache)) = some ([.setOutputEnable false], true, [0xFF#8, 0xFF#8]) := by decide +kernel

/-- V1, V33. -/
theorem test_outWritebyte : (after (.outWritebyte 0xB2#8) (oec [0x00#8] [0x00#8] (.line []))).map
    (fun e => (drivenBits e.trace, e.cache)) = some (bits [1, 0, 1, 1, 0, 0, 1, 0], [0xB2#8]) := by decide +kernel

/-- V37, on the reference output chip. -/
theorem test_outWritebyte_chip : (after (.outWritebyte 0xB2#8) (oec [0x00#8] [0x00#8]
    (.outputChip { shift := List.replicate 8 true, storage := List.replicate 8 false }))).map Engine.attached =
    some (.outputChip { shift := bits [0, 1, 0, 0, 1, 1, 0, 1], storage := bits [0, 1, 0, 0, 1, 1, 0, 1] }) := by
  decide +kernel

/-- V34. -/
theorem test_outWriteword : (after (.outWriteword 0x1234#16) (oec [0x00#8, 0x00#8] [] (.line []))).map
    (fun e => (drivenBits e.trace, e.cache)) =
      some (bits [0, 0, 0, 1, 0, 0, 1, 0, 0, 0, 1, 1, 0, 1, 0, 0], [0x34#8, 0x12#8]) := by decide +kernel

/-- V35. -/
theorem test_outWriteall : (after (.outWriteall 2) (oec [0x00#8, 0x00#8] [0xAA#8, 0x55#8] (.line []))).map
    (fun e => (drivenBits e.trace, e.cache)) =
      some (bits [0, 1, 0, 1, 0, 1, 0, 1, 1, 0, 1, 0, 1, 0, 1, 0], [0xAA#8, 0x55#8]) := by decide +kernel

/-- V35. -/
theorem test_outWriteall_mismatch : (after (.outWriteall 3) (oec [0x01#8, 0x02#8] [0xAA#8, 0x55#8] (.line []))).map
    (fun e => (e.status, e.cache, e.trace)) = some (0x02#32, [0x01#8, 0x02#8], []) := by decide +kernel

/-- V36. -/
theorem test_outWritebit : (after (.outWritebit 15 true) (oec [0x34#8, 0x12#8] [] (.line []))).map
    (fun e => (e.status, e.cache, e.trace.length)) = some (0x00#32, [0x34#8, 0x92#8], 84) := by decide +kernel

/-- V36: UNCHANGED. -/
theorem test_outWritebit_same : (after (.outWritebit 15 true) (oec [0x34#8, 0x92#8] [] (.line []))).map
    (fun e => (e.status, e.trace)) = some (0x01#32, []) := by decide +kernel

/-- V45: a reserved bit is checked before READY. -/
theorem test_bad_before_ready : (afterAction (.write 32 0x4000 0x00000101#32) (fresh .iec 2)).map Engine.status = some 0x05#32 := by
  decide +kernel

/-- V45: READY is checked before the range. -/
theorem test_ready_before_range : (afterAction (.write 32 0x4000 0x00001006#32) (fresh .iec 2)).map Engine.status =
    some 0x06#32 := by decide +kernel

/-! The host's window. -/

/-- V30: INFO of a ready OEC of one chip, and of an IEC after reset (R39). -/
theorem test_info : readBack (.read 32 0x400C) (oec [0x00#8] [0x00#8] (.line [])) = some 0x00030001#32 ∧
    readBack (.read 32 0x400C) (fresh .iec 2) = some 0x00000002#32 := by decide +kernel

/-- P3: bytes of XBUF; above N they read 0 (R51). -/
theorem test_xbuf : (afterAction (.write 8 0x4101 0x00000080#32) (oec [0x00#8, 0x00#8] [0x01#8, 0x00#8] (.line []))).map
      Engine.xbuf = some [0x01#8, 0x80#8] ∧
    readBack (.read 8 0x4101) (oec [0x00#8, 0x00#8] [0x01#8, 0x80#8] (.line [])) = some 0x80#32 ∧
    readBack (.read 8 0x60FF) (oec [0x00#8, 0x00#8] [0x01#8, 0x80#8] (.line [])) = some 0#32 := by decide +kernel

/-- R53: a byte of a register, a word of XBUF, a misaligned register, an address outside the window. -/
theorem test_refused : readBack (.read 8 0x4004) (fresh .iec 1) = none ∧ readBack (.read 32 0x4100) (fresh .iec 1) = none ∧
    readBack (.read 32 0x4006) (fresh .iec 1) = none ∧ readBack (.read 8 0x6100) (fresh .iec 1) = none := by decide +kernel

/-- V40: a looped-back IEC reads the storage stage of the OEC. -/
def loopState : State where
  engines := [
    { iec 2 (.inputChip { inputs := List.replicate 16 false, shift := List.replicate 16 false, clk := .low, loop := some 1 }) with
      params := { paramsOf .iec 2 with base := 0, lines := [2] } },
    oec [0x34#8, 0x12#8] [0x34#8, 0x12#8] (.outputChip {
      shift := List.replicate 16 false, storage := bits [0, 0, 1, 0, 1, 1, 0, 0, 0, 1, 0, 0, 1, 0, 0, 0] })]
  target := 0
  pending := [.write 32 0 0x00000004#32]
  busRead := none

theorem test_loopback : (match step loopState with
    | .next t => (t.engines[0]?).map Engine.rdata
    | .fault _ => none
    | .refused _ => none) = some 0x00001234#32 := by decide +kernel

/-! How the host's questions are answered (log entry 5). -/

theorem test_decodeTableWord : decodeTableWord 32 0x00000906 = some (.inReadbit 9) ∧
    decodeTableWord 32 0x01000F17 = some (.outWritebit 15 true) ∧ decodeTableWord 32 0x00000000 = none := by decide

/-- The first step after reset runs OUT.INIT, on the OEC. -/
theorem test_withFetchWord : (match step (State.reset.withFetchWord 32 0x00000011) with
    | .next t => (t.engines[1]?).map fun e => (e.ready, e.cache)
    | .fault _ => none
    | .refused _ => none) = some (true, [0x00#8, 0x00#8]) := by decide +kernel

/-! Witnesses: for every statement with hypotheses, states and operands that meet all of them together, one for each clause, at the
boundary of its range where it has one. -/

/-- The reference output chip of an OEC of width `n`, holding ones. -/
def outChip (n : Nat) : OutputChip where
  shift := List.replicate (8 * n) true
  storage := List.replicate (8 * n) true

/-- The reference input chip of an IEC of width `n`, its inputs high. -/
def inChip (n : Nat) : InputChip where
  inputs := List.replicate (8 * n) true
  shift := List.replicate (8 * n) false
  clk := .low
  loop := none

def waiting (e : Engine) (as : List Action) : State := { alone e with pending := as }

theorem iec_inv (n : Nat) (ds : List Bool) : (iec n (.line ds)).Inv :=
  ⟨by simp [Memory.wf, iec, Engine.atReset, paramsOf], by simp [Engine.otherKindUnused, iec, Engine.atReset, paramsOf],
    ⟨.ok, rfl⟩, by show BitVec.extractLsb' 16 16 0#32 = 0#16; decide,
    fun _ => by simp [Engine.linesDriven, iec, Engine.atReset, paramsOf, Level.driven], rfl⟩

theorem oec_inv (cache xbuf : List Byte) (h : xbuf.length = cache.length) (a : Attached)
    (hf : a.fits (paramsOf .oec cache.length) = true) : (oec cache xbuf a).Inv :=
  ⟨by simp [Memory.wf, oec, Engine.atReset, paramsOf, h],
    by simp [Engine.otherKindUnused, oec, Engine.atReset, paramsOf, Memory.wf],
    ⟨.ok, rfl⟩, by show BitVec.extractLsb' 16 16 0#32 = 0#16; decide,
    fun _ => by simp [Engine.linesDriven, oec, Engine.atReset, paramsOf, Level.driven], hf⟩

/-- One OEC chip, ready, with a reference chip. -/
def oec1 : Engine := oec [0x0F#8] [0x5A#8] (.outputChip (outChip 1))

theorem oec1_inv : oec1.Inv := oec_inv [0x0F#8] [0x5A#8] rfl (.outputChip (outChip 1)) (by decide)

theorem witness_EncodedCommandDecodesToItself : (Instr.outWritebit 65535 true).wellFormed = true := by decide

theorem witness_DecodedWordIsItsCommandsWord : decode .oec 0x01FFFF17#32 = .ok (.outWritebit 65535 true) := by decide

/-- A reserved bit, and an opcode of the other group. -/
theorem witness_IllegalWordCompletesWithBadCommand :
    (waiting (iec 2 (.line [])) [.write 32 0x4000 0x01000006#32]).admitted = true ∧
    (waiting (iec 2 (.line [])) [.write 32 0x4000 0x01000006#32]).find 0x4000 = some 0 ∧
    illegalOn .iec 0x01000006#32 ∧ illegalOn .iec 0x00000011#32 ∧ illegalOn .oec 0x02000017#32 :=
  ⟨by decide, by decide, by simp [illegalOn, legalMasks], by simp [illegalOn, legalMasks],
    by simp [illegalOn, legalMasks]⟩

theorem witness_StepRunsTheDecodedCommand :
    (waiting (iec 2 (.line [])) [.write 32 0x4000 0x00000906#32]).admitted = true ∧
    (waiting (iec 2 (.line [])) [.write 32 0x4000 0x00000906#32]).find 0x4000 = some 0 ∧
    decode (iec 2 (.line [])).params.kind 0x00000906#32 = .ok (.inReadbit 9) := by decide

/-- The wiring's clauses: a chip that is not looped back, and one that is, to an OEC of the same N. -/
theorem witness_StepRunsTheDecodedCommand_wired :
    loopState.admitted = true ∧ loopState.find 0 = some 0 ∧ decode .iec 0x00000004#32 = .ok .inReadword ∧ (inChip 2).loop = none ∧
    (loopState.engines[0]?.map fun e => match e.attached with
      | .inputChip c => c.loop
      | _ => none) = some (some 1) ∧
    (loopState.engines.map fun e => e.params.n) = [2, 2] := by decide

theorem witness_EveryCommandCompletesWithACode : (alone (iec 1 (.line []))).current = some (iec 1 (.line [])) := rfl

/-- Every branch of R208, the range check at both sides of 8N = 16, UNCHANGED at its last bit. -/
theorem witness_ResultCodeFollowsThePriority : (alone (fresh .oec 2)).current = some (fresh .oec 2) ∧
    statusByPriority .inInit (fresh .oec 2) = 0x05#32 ∧ statusByPriority (.outWritebit 16 false) (fresh .oec 2) = 0x06#32 ∧
    statusByPriority .outInit { fresh .oec 2 with params := { paramsOf .oec 2 with bound := { Config.allBound with delay := false } } } =
      0x04#32 ∧
    statusByPriority (.outWritebit 16 false) (oec [0x34#8, 0x12#8] [0#8, 0#8] (.line [])) = 0x03#32 ∧
    statusByPriority (.outWritebit 15 false) (oec [0x34#8, 0x12#8] [0#8, 0#8] (.line [])) = 0x01#32 ∧
    statusByPriority (.outWritebit 15 true) (oec [0x34#8, 0x12#8] [0#8, 0#8] (.line [])) = 0x00#32 ∧
    statusByPriority (.outWriteall 3) (oec [0x34#8, 0x12#8] [0#8, 0#8] (.line [])) = 0x02#32 :=
  ⟨rfl, by decide, by decide, by decide, by decide, by decide, by decide, by decide⟩

/-- A failed command: NOT_READY. -/
theorem witness_FailedCommandChangesNothingElse : (alone (fresh .oec 1)).current = some (fresh .oec 1) ∧
    (after .outEnable (fresh .oec 1)).map Engine.status = some 0x06#32 := ⟨rfl, by decide +kernel⟩

theorem witness_ParametersNeverChange : ∃ t, step (waiting (iec 2 (.line [])) [.write 8 0x4101 0xFF#32]) = .next t := ⟨_, rfl⟩

theorem witness_StepKeepsTheInvariants : (waiting (iec 2 (.line [])) [.reset 0]).Inv ∧
    ∃ t, step (waiting (iec 2 (.line [])) [.reset 0]) = .next t := by
  refine ⟨?_, _, rfl⟩
  intro e he
  obtain rfl : e = iec 2 (.line []) := by simpa [waiting, alone] using he
  exact iec_inv 2 []

theorem witness_StepTouchesOnlyTheAddressedEngine :
    (Action.write 8 0x10101 0xFF#32).engine State.reset = some 1 ∧
    ∃ t, step { State.reset with pending := [.write 8 0x10101 0xFF#32] } = .next t := ⟨by decide, _, rfl⟩

theorem witness_ActionsOnDistinctEnginesCommute :
    (Action.write 8 0x100 0x01#32).engine State.reset = some 0 ∧ (Action.write 8 0x10101 0xFF#32).engine State.reset = some 1 ∧
    (∀ e ∈ State.reset.engines, ∀ c, e.attached = .inputChip c → c.loop = none) ∧
    ∃ t u, step { State.reset with pending := [.write 8 0x100 0x01#32, .write 8 0x10101 0xFF#32] } = .next t ∧
      step t = .next u := by
  refine ⟨by decide, by decide, ?_, _, _, rfl, rfl⟩
  intro e he c hc
  simp only [State.reset, List.mem_cons, List.not_mem_nil, or_false] at he
  rcases he with rfl | rfl <;> cases hc

/-- All capabilities, and one omitted. -/
theorem witness_InInitChecksCapabilitiesThenInitialises :
    (alone (fresh .iec 1)).current = some (fresh .iec 1) ∧ (fresh .iec 1).params.kind = .iec ∧
    capabilitiesPresent .iec Config.allBound = true ∧
    capabilitiesPresent .iec { Config.allBound with delay := false } = false := ⟨rfl, rfl, by decide, by decide⟩

/-- Ready, and not. -/
theorem witness_InLoadEmitsOneLoadPulse :
    (alone (iec 1 (.line []))).current = some (iec 1 (.line [])) ∧ (iec 1 (.line [])).params.kind = .iec ∧
    (iec 1 (.line [])).ready = true ∧ (fresh .iec 1).ready = false := ⟨rfl, rfl, rfl, rfl⟩

/-- N = 1, N = 2, and not ready. -/
theorem witness_InReadbyteAssemblesEightSamples :
    (alone (iec 1 (.line []))).current = some (iec 1 (.line [])) ∧ (iec 1 (.line [])).params.kind = .iec ∧
    ((iec 1 (.line [])).ready = true ∧ (iec 1 (.line [])).params.n = 1) ∧
    ((iec 2 (.line [])).ready = true ∧ (iec 2 (.line [])).params.n ≠ 1) ∧ (fresh .iec 1).ready = false :=
  ⟨rfl, rfl, ⟨rfl, rfl⟩, ⟨rfl, by decide⟩, rfl⟩

/-- N = 2, N = 1, and not ready. -/
theorem witness_InReadwordAssemblesSixteenSamples :
    (alone (iec 2 (.line []))).current = some (iec 2 (.line [])) ∧ (iec 2 (.line [])).params.kind = .iec ∧
    ((iec 2 (.line [])).ready = true ∧ (iec 2 (.line [])).params.n = 2) ∧
    ((iec 1 (.line [])).ready = true ∧ (iec 1 (.line [])).params.n ≠ 2) ∧ (fresh .iec 2).ready = false :=
  ⟨rfl, rfl, ⟨rfl, rfl⟩, ⟨rfl, by decide⟩, rfl⟩

/-- LEN = N = 1, LEN = 0, and not ready. -/
theorem witness_InReadallFillsXbuf :
    (alone (iec 1 (.line []))).current = some (iec 1 (.line [])) ∧ (iec 1 (.line [])).params.kind = .iec ∧
    (iec 1 (.line [])).xbuf.length = (iec 1 (.line [])).params.n ∧ 1 ≤ (iec 1 (.line [])).params.n ∧
    (iec 1 (.line [])).ready = true ∧ 0 ≠ (iec 1 (.line [])).params.n ∧ (fresh .iec 1).ready = false ∧
    (fresh .iec 1).xbuf.length = 1 :=
  ⟨rfl, rfl, rfl, by decide, rfl, by decide, rfl, rfl⟩

/-- IDX 15 is the last of N = 2, 16 the first outside, 7 needs no pulse. -/
theorem witness_InReadbitClocksToTheTarget :
    (alone (iec 2 (.line []))).current = some (iec 2 (.line [])) ∧ (iec 2 (.line [])).params.kind = .iec ∧
    (iec 2 (.line [])).ready = true ∧ 7 < (iec 2 (.line [])).params.n * 8 ∧ 15 < (iec 2 (.line [])).params.n * 8 ∧
    (iec 2 (.line [])).params.n * 8 ≤ 16 ∧ (fresh .iec 2).ready = false :=
  ⟨rfl, rfl, rfl, by decide, by decide, by decide, rfl⟩

theorem witness_OutInitChecksCapabilitiesThenPushesZeros :
    (alone (fresh .oec 1)).current = some (fresh .oec 1) ∧ (fresh .oec 1).params.kind = .oec ∧ 1 ≤ (fresh .oec 1).params.n ∧
    capabilitiesPresent .oec Config.allBound = true ∧
    capabilitiesPresent .oec { Config.allBound with gpioInit := false } = false :=
  ⟨rfl, rfl, by decide, by decide, by decide⟩

theorem witness_OutEnableDrivesTheEnableLine : (alone oec1).current = some oec1 ∧ oec1.params.kind = .oec ∧
    oec1.ready = true ∧ (fresh .oec 1).ready = false := ⟨rfl, rfl, rfl, rfl⟩

theorem witness_OutDisableReleasesTheEnableLine : (alone oec1).current = some oec1 ∧ oec1.params.kind = .oec ∧
    oec1.ready = true ∧ (fresh .oec 1).ready = false := ⟨rfl, rfl, rfl, rfl⟩

theorem witness_OutDeinitKeepsReadyAndCache : (alone oec1).current = some oec1 ∧ oec1.params.kind = .oec ∧
    oec1.ready = true ∧ (fresh .oec 1).ready = false := ⟨rfl, rfl, rfl, rfl⟩

/-- An OEC of two chips, ready. -/
def oec2 : Engine := oec [0x34#8, 0x12#8] [0xAA#8, 0x55#8] (.outputChip (outChip 2))

theorem oec2_inv : oec2.Inv :=
  oec_inv [0x34#8, 0x12#8] [0xAA#8, 0x55#8] rfl (.outputChip (outChip 2)) (by decide)

theorem witness_OutWritebyteStoresAndPushes : (alone oec1).current = some oec1 ∧ oec1.params.kind = .oec ∧
    oec1.cache.length = oec1.params.n ∧ (oec1.ready = true ∧ oec1.params.n = 1) ∧
    (oec2.ready = true ∧ oec2.params.n ≠ 1 ∧ oec2.cache.length = oec2.params.n) ∧
    ((fresh .oec 1).ready = false ∧ (fresh .oec 1).cache.length = 1) :=
  ⟨rfl, rfl, rfl, ⟨rfl, rfl⟩, ⟨rfl, by decide, rfl⟩, rfl, rfl⟩

theorem witness_OutWritewordStoresAndPushes : (alone oec2).current = some oec2 ∧ oec2.params.kind = .oec ∧
    oec2.cache.length = oec2.params.n ∧ (oec2.ready = true ∧ oec2.params.n = 2) ∧
    (oec1.ready = true ∧ oec1.params.n ≠ 2 ∧ oec1.cache.length = oec1.params.n) ∧
    ((fresh .oec 2).ready = false ∧ (fresh .oec 2).cache.length = 2) :=
  ⟨rfl, rfl, rfl, ⟨rfl, rfl⟩, ⟨rfl, by decide, rfl⟩, rfl, rfl⟩

/-- LEN = N, LEN = 0, and not ready; the largest LEN of the field. -/
theorem witness_OutWriteallCopiesXbufAndPushes : (alone oec2).current = some oec2 ∧ oec2.params.kind = .oec ∧
    oec2.xbuf.length = oec2.params.n ∧ 1 ≤ oec2.params.n ∧ oec2.ready = true ∧ 2 = oec2.params.n ∧ 0 ≠ oec2.params.n ∧
    ((fresh .oec 2).ready = false ∧ (fresh .oec 2).xbuf.length = 2) ∧ 65535 < 65536 :=
  ⟨rfl, rfl, rfl, by decide, rfl, rfl, by decide, ⟨rfl, rfl⟩, by decide⟩

/-- IDX 15 (the last of N = 2) changed and unchanged, IDX 16, and not ready. -/
theorem witness_OutWritebitSuppressesAnUnchangedBit : (alone oec2).current = some oec2 ∧ oec2.params.kind = .oec ∧
    oec2.cache.length = oec2.params.n ∧ oec2.ready = true ∧ 15 < oec2.params.n * 8 ∧
    byteBit (arrayByte oec2.cache (15 / 8)) (15 % 8) ≠ true ∧ byteBit (arrayByte oec2.cache (15 / 8)) (15 % 8) = false ∧
    oec2.params.n * 8 ≤ 16 ∧ ((fresh .oec 2).ready = false ∧ (fresh .oec 2).cache.length = 2) :=
  ⟨rfl, rfl, rfl, rfl, by decide, by decide, by decide, by decide, rfl, rfl⟩

theorem witness_OutWritebitTwiceIsUnchanged : (alone oec2).current = some oec2 ∧ oec2.params.kind = .oec ∧
    oec2.ready = true ∧ oec2.cache.length = oec2.params.n ∧ 15 < oec2.params.n * 8 := ⟨rfl, rfl, rfl, rfl, by decide⟩

/-- A bit toggled and toggled back over a storage stage that is not CACHE: the first write ends with OK (first alternative); and an
engine whose storage stage holds CACHE (second alternative). -/
theorem witness_WritebitSequencesKeepTheChipEqualToTheCache : (alone oec1).current = some oec1 ∧ oec1.params.kind = .oec ∧
    oec1.ready = true ∧ oec1.Inv ∧ oec1.attached = .outputChip (outChip 1) ∧
    (∀ w ∈ [(7, true), (7, false)], w.1 < oec1.params.n * 8) ∧
    [(7, true), (7, false)] = [] ++ (7, true) :: [(7, false)] ∧ execAll [] (alone oec1) = .next (alone oec1) ∧
    (after (.outWritebit 7 true) oec1).map Engine.status = some 0x00#32 ∧
    (oec [0xFF#8] [0x5A#8] (.outputChip (outChip 1))).Inv ∧
    (∀ i, i < 8 → (outChip 1).storage[i]? = some (byteBit (arrayByte [0xFF#8] (i / 8)) (i % 8))) :=
  ⟨rfl, rfl, rfl, oec1_inv, rfl, by decide, rfl, rfl, by decide +kernel,
    oec_inv [0xFF#8] [0x5A#8] rfl (.outputChip (outChip 1)) (by decide), by decide⟩

theorem witness_EnableTogglingKeepsThePattern : (alone oec1).current = some oec1 ∧ oec1.params.kind = .oec ∧
    (∀ i ∈ [Instr.outDisable, .outEnable, .outDeinit], togglesEnable i = true) := ⟨rfl, rfl, by decide⟩

/-- The last index of N = 8192 (V12). -/
theorem witness_SamplePositionIsItsOwnInverse : 65535 < 8192 * 8 ∧ pos 65535 = 65528 := by decide

/-- The first and the last bit of N = 2 (V11). -/
theorem witness_ChainIsShiftedMostSignificantChipFirst : oec2.params.n = 2 ∧
    15 < 2 * 8 ∧ 8 * (2 - 1 - 0 / 8) + 7 - 0 % 8 = 15 ∧ 8 * (2 - 1 - 15 / 8) + 7 - 15 % 8 = 0 := by decide

/-- Eight draws for eight samples. -/
theorem witness_DrawsAreSampledInOrder :
    (alone (iec 1 (.line (List.replicate 8 true)))).current = some (iec 1 (.line (List.replicate 8 true))) ∧
    (after .inReadbyte (iec 1 (.line (List.replicate 8 true)))).map (fun e => (samplesOf e.trace).length) = some 8 :=
  ⟨rfl, by decide +kernel⟩

theorem witness_ReadsGiveTheInputsOfTheChip :
    (alone (iec 1 (.inputChip (inChip 1)))).current = some (iec 1 (.inputChip (inChip 1))) ∧
    (iec 1 (.inputChip (inChip 1))).attached.fits (paramsOf .iec 1) = true ∧
    (iec 2 (.inputChip (inChip 2))).attached.fits (paramsOf .iec 2) = true ∧
    (iec 1 (.inputChip (inChip 1))).ready = true ∧ (iec 1 (.inputChip (inChip 1))).xbuf.length = 1 ∧
    (iec 2 (.inputChip (inChip 2))).xbuf.length = 2 ∧ 7 < 8 * 1 ∧ 15 < 8 * 2 :=
  ⟨rfl, by decide, by decide, rfl, rfl, rfl, by decide, by decide⟩

/-- A write of each kind, and OUT.INIT, on a ready OEC. -/
theorem witness_FullChainWriteReachesTheChip : (alone oec1).current = some oec1 ∧ oec1.params.kind = .oec ∧
    oec1.attached = .outputChip (outChip 1) ∧ oec1.Inv ∧
    (∀ i ∈ [Instr.outInit, .outWritebyte 0xB2#8, .outWriteall 1, .outWritebit 7 true],
      writesChain i = true ∧ statusByPriority i oec1 = 0x00#32) ∧
    oec2.Inv ∧ statusByPriority (.outWriteword 0x1234#16) oec2 = 0x00#32 :=
  ⟨rfl, rfl, rfl, oec1_inv, by decide, oec2_inv, by decide⟩

theorem witness_ShiftStepsLeaveTheStorageStage : oec1.attached = .outputChip (outChip 1) ∧
    (Engine.shiftOut [true, false] oec1).latchQ = .low := ⟨rfl, by decide +kernel⟩

/-- OE_Q 1, 0 and U. -/
theorem witness_OutputEnableGatesTheStorageStage : (alone oec1).current = some oec1 ∧ oec1.params.kind = .oec ∧
    oec1.attached = .outputChip (outChip 1) ∧ oec1.ready = true ∧ oec1.oeQ = .low ∧ (fresh .oec 1).oeQ = .undriven ∧
    (after .outEnable oec1).map Engine.oeQ = some .high ∧ (outChip 1).storage[7]? = some true :=
  ⟨rfl, rfl, rfl, rfl, rfl, rfl, by decide +kernel, by decide⟩

/-- An OEC (0) and an IEC (1) of two chips in loopback, both ready. -/
def loopOec : Engine := oec2

def loopIec : Engine :=
  { iec 2 (.inputChip { inChip 2 with loop := some 0 }) with params := { paramsOf .iec 2 with base := 0x8000, lines := [2] } }

def loopSystem (as : List Action) : State where
  engines := [loopOec, loopIec]
  target := 0
  pending := as
  busRead := none

theorem loopSystem_inv (as : List Action) : (loopSystem as).Inv := by
  intro e he
  simp only [loopSystem, List.mem_cons, List.not_mem_nil, or_false] at he
  rcases he with rfl | rfl
  · exact oec2_inv
  · exact ⟨rfl, ⟨rfl, rfl, rfl, rfl⟩, ⟨.ok, rfl⟩, by show BitVec.extractLsb' 16 16 0#32 = 0#16; decide,
      fun _ => ⟨rfl, rfl⟩, by decide⟩

theorem witness_LoopbackRoundTripGivesThePatternBack :
    (loopSystem [.write 32 0x4000 (encode (.outWriteall 2)), .write 32 0x8000 (encode (.inReadall 2))]).admitted = true ∧
    (loopSystem [.write 32 0x4000 (encode (.outWriteall 2)), .write 32 0x8000 (encode (.inReadall 2))]).Inv ∧
    loopOec.params.kind = .oec ∧ loopIec.params.kind = .iec ∧ loopOec.ready = true ∧ loopIec.ready = true ∧
    loopOec.attached = .outputChip (outChip 2) ∧ loopIec.attached = .inputChip { inChip 2 with loop := some 0 } ∧
    loopOec.params.n = loopIec.params.n ∧ (loopSystem []).find loopOec.params.base = some 0 ∧
    (loopSystem []).find loopIec.params.base = some 1 :=
  ⟨by decide, loopSystem_inv _, rfl, rfl, rfl, rfl, rfl, rfl, rfl, by decide, by decide⟩

theorem witness_LoopbackWordRoundTripIsUnchanged :
    (loopSystem [.write 32 0x4000 (encode (.outWriteword 0x1234#16)), .write 32 0x8000 (encode .inReadword)]).admitted = true ∧
    (loopSystem [.write 32 0x4000 (encode (.outWriteword 0x1234#16)), .write 32 0x8000 (encode .inReadword)]).Inv ∧
    loopOec.params.kind = .oec ∧ loopIec.params.kind = .iec ∧ loopOec.ready = true ∧ loopIec.ready = true ∧
    loopOec.attached = .outputChip (outChip 2) ∧ loopIec.attached = .inputChip { inChip 2 with loop := some 0 } ∧
    loopOec.params.n = 2 ∧ loopIec.params.n = 2 ∧ (loopSystem []).find loopOec.params.base = some 0 ∧
    (loopSystem []).find loopIec.params.base = some 1 :=
  ⟨by decide, loopSystem_inv _, rfl, rfl, rfl, rfl, rfl, rfl, rfl, rfl, by decide, by decide⟩

/-- One read for each clause, at the first and the last offset of its range. -/
theorem witness_HostReadsReturnTheRegisters :
    (∀ p ∈ [(32, 0x0000), (32, 0x0004), (32, 0x0008), (32, 0x000C), (32, 0x0010), (32, 0x00FC), (8, 0x0100), (8, 0x0101),
        (8, 0x0102), (8, 0x20FF)],
      (waiting (iec 2 (.line [])) [.read p.1 (0x4000 + p.2)]).admitted = true ∧
      (waiting (iec 2 (.line [])) [.read p.1 (0x4000 + p.2)]).find (0x4000 + p.2) = some 0) ∧
    (iec 2 (.line [])).xbuf.length = 2 ∧ (iec 2 (.line [])).xbuf[1]? = some 0x00#8 ∧ 0x0100 + 2 ≤ 0x0102 :=
  ⟨by decide +kernel, rfl, rfl, by decide⟩

theorem witness_XbufByteReadsBackAsWritten :
    (waiting (iec 2 (.line [])) [.write 8 0x4101 0x80#32, .read 8 0x4101]).admitted = true ∧
    (waiting (iec 2 (.line [])) [.write 8 0x4101 0x80#32, .read 8 0x4101]).find 0x4101 = some 0 ∧
    (iec 2 (.line [])).params.base = 0x4000 ∧ (iec 2 (.line [])).xbuf.length = 2 ∧ 1 < 2 :=
  ⟨by decide, by decide, rfl, rfl, by decide⟩

/-- The first and the last offset of both clauses. -/
theorem witness_WritesToReadOnlyOffsetsHaveNoEffect :
    (∀ p ∈ [(32, 0x0004), (32, 0x00FC), (8, 0x0102), (8, 0x20FF)],
      (waiting (iec 2 (.line [])) [.write p.1 (0x4000 + p.2) 0xFF#32]).admitted = true ∧
      (waiting (iec 2 (.line [])) [.write p.1 (0x4000 + p.2) 0xFF#32]).find (0x4000 + p.2) = some 0) ∧
    ((0x0004 % 4 = 0 ∧ 0x0004 < 0x0100) ∧ (0x00FC % 4 = 0 ∧ 0x00FC < 0x0100) ∧ (0x0100 + 2 ≤ 0x0102 ∧ 0x20FF < 0x2100)) :=
  ⟨by decide +kernel, by decide⟩

/-- An address just below and just above the window; a byte of a register, a word of XBUF, a misaligned register. -/
theorem witness_OtherHostAccessesAreRefused :
    (waiting (iec 2 (.line [])) [.read 32 0x3FFC]).admitted = true ∧
    (∀ e ∈ (waiting (iec 2 (.line [])) [.read 32 0x3FFC]).engines,
      (0x3FFC < e.params.base ∨ e.params.base + 0x2100 ≤ 0x3FFC) ∧ (0x6100 < e.params.base ∨ e.params.base + 0x2100 ≤ 0x6100)) ∧
    (∀ p ∈ [(8, 0x4004), (32, 0x4100), (32, 0x4002), (16, 0x4000)],
      (waiting (iec 2 (.line [])) [.read p.1 p.2]).find p.2 = some 0 ∧
      ¬ (p.1 = 32 ∧ (p.2 - 0x4000) % 4 = 0 ∧ p.2 - 0x4000 < 0x0100) ∧ ¬ (p.1 = 8 ∧ 0x0100 ≤ p.2 - 0x4000)) :=
  ⟨by decide, by decide +kernel, by decide +kernel⟩

/-- Two engines with line 0 in common; N = 0 and N = 8193. -/
theorem witness_ConfigurationsOutsideTheSpecAreRefused :
    ({ alone oec1 with engines := [oec1, oec2] } : State).engines[0]? = some oec1 ∧
    ({ alone oec1 with engines := [oec1, oec2] } : State).engines[1]? = some oec2 ∧
    0 ∈ oec1.params.lines ∧ 0 ∈ oec2.params.lines ∧
    fresh .iec 0 ∈ (alone (fresh .iec 0)).engines ∧ (fresh .iec 0).params.n = 0 ∧
    fresh .oec 8193 ∈ (alone (fresh .oec 8193)).engines ∧ 8192 < (fresh .oec 8193).params.n :=
  ⟨rfl, rfl, by decide, by decide, List.mem_singleton.mpr rfl, rfl, List.mem_singleton.mpr rfl, by decide⟩

theorem witness_ResetRestoresOneEngine : (waiting oec1 [.reset 0]).admitted = true ∧
    (waiting oec1 [.reset 0]).engines[0]? = some oec1 := ⟨by decide, rfl⟩

theorem witness_IdleEnginesKeepTheirState : State.reset.admitted = true ∧ State.reset.pending = [] := ⟨by decide, rfl⟩

theorem witness_TraceCountsAreThoseOfTheTable : (alone oec1).current = some oec1 := rfl

theorem witness_InputCommandsWriteOnlyTheirOwnState : (Instr.inReadbit 7).kind = .iec ∧
    (alone (iec 1 (.line []))).current = some (iec 1 (.line [])) := ⟨rfl, rfl⟩

theorem witness_InputResultsDependOnlyOnTheDraws :
    (Instr.inReadall 1).kind = .iec ∧
    (iec 1 (.line (List.replicate 8 true))).params = (iec 1 (.line (List.replicate 8 true))).params ∧
    ({ iec 1 (.line (List.replicate 8 true)) with rdata := 0x0FA5#32, xbuf := [0x77#8] } : Engine).ready =
      (iec 1 (.line (List.replicate 8 true))).ready ∧
    8 * (iec 1 (.line (List.replicate 8 true))).params.n ≤ (List.replicate 8 true).length ∧
    (iec 1 (.line (List.replicate 8 true))).xbuf.length = 1 ∧
    ((after (.inReadall 1) (iec 1 (.line (List.replicate 8 true)))).map Engine.status = some 0x00#32) ∧
    ((after (.inReadbit 7) (iec 1 (.line (List.replicate 8 true)))).map Engine.status = some 0x00#32) :=
  ⟨rfl, rfl, rfl, by decide, rfl, by decide +kernel, by decide +kernel⟩

theorem witness_OutputCommandsWriteOnlyTheirOwnState : Instr.outDeinit.kind = .oec ∧ (alone oec1).current = some oec1 :=
  ⟨rfl, rfl⟩

theorem witness_NoCommandReadsStatus : (alone oec1).current = some oec1 := rfl

theorem witness_EnginesEmitOnlyTheirEvents : (alone (iec 1 (.line []))).current = some (iec 1 (.line [])) := rfl

end Sys2Proof.Tests
end

section
/-! PROOFS. The scope of the system (00_scope.md): engines share no state (R2), an engine emits the events of its kind only (R13),
and a data line gives one draw for each sample (R14). -/

namespace Sys2Proof.Machine

/-- The engine an action is about depends on the engines of the system only. -/
theorem action_engine_of_engines {s t : State} (h : t.engines = s.engines) (a : Action) : a.engine t = a.engine s := by
  have hfind : ∀ addr, t.find addr = s.find addr := find_of_params (by rw [h])
  cases a with
  | write bits addr v => exact hfind addr
  | read bits addr => exact hfind addr
  | reset k => rfl
  | environment k b => rfl

/-- An action that answers a next state leaves the actions to come, and every engine but the one it is about. -/
theorem perform_other_engines {a : Action} {s t : State} {k : Nat} (ha : a.engine s = some k)
    (h : State.perform a s = .next t) :
    (∀ j, j ≠ k → t.engines[j]? = s.engines[j]?) ∧ t.pending = s.pending := by
  rcases perform_cases h with ⟨heng, hpend⟩ | ⟨k', e, x, _, ha', heng, hpend, _⟩
  · exact ⟨fun j _ => by rw [heng], hpend⟩
  · obtain rfl : k' = k := Option.some.inj (ha'.symm.trans ha)
    exact ⟨fun j hj => by rw [heng, List.getElem?_set_ne hj.symm], hpend⟩

/-- Settles O12: a step performs one action, and `perform_other_engines` says what that leaves. -/
theorem stepTouchesOnlyTheAddressedEngine : Obligations.StepTouchesOnlyTheAddressedEngine := by
  intro s t a rest k hp ha hstep
  obtain ⟨hadm, _⟩ := step_cases hstep
  rw [step_action hadm hp] at hstep
  exact perform_other_engines (s := { s with pending := rest, busRead := none })
    ((action_engine_of_engines rfl a).trans ha) hstep

/-- The trace of a command and what it leaves on the pins: no event and the pins as they were, or the events of a body that ends
with OK and the pins after them. -/
theorem result_trace_cases (i : Instr) (e : Engine) :
    ((resultOf i e).trace = [] ∧ (resultOf i e).attached = e.attached) ∨
    (e.params.kind = i.kind ∧ Done i e.begin (resultOf i e).trace (resultOf i e) ∧
      (resultOf i e).attached = (e.begin.emits (resultOf i e).trace).attached) := by
  rcases result_cases i e with ⟨_, hr⟩ | ⟨_, _, _, hr⟩ | ⟨_, _, hr⟩ | ⟨hk, _, evs, hr⟩
  · exact .inl (by rw [hr]; exact ⟨rfl, rfl⟩)
  · exact .inl (by rw [hr]; exact ⟨rfl, rfl⟩)
  · exact .inl (by rw [hr.eq]; exact ⟨rfl, rfl⟩)
  · have htrace : (resultOf i e).trace = evs := by rw [hr.eq]; simp
    rw [htrace]
    exact .inr ⟨hk, hr, by rw [hr.eq]⟩

/-- Settles O33: a body that ends with OK samples the draws in order (`Done.draws`), and each sample uses up one (`emits_line`); any
other end of a command takes no sample. -/
theorem drawsAreSampledInOrder : Obligations.DrawsAreSampledInOrder := by
  intro i s e ds hcur hline
  refine ⟨resultOf i e, exec_eq hcur i, fun hlen => ?_⟩
  rcases result_trace_cases i e with ⟨htrace, hatt⟩ | ⟨_, hdone, hatt⟩
  · rw [htrace, hatt, hline]
    exact ⟨rfl, rfl⟩
  · exact ⟨hdone.draws ds hline hlen, hatt.trans (emits_line _ hline)⟩

/-- Settles O52: the events of a body that ends with OK are those of its command's kind (`Done.allowed`), which is the engine's; any
other end of a command emits none. -/
theorem enginesEmitOnlyTheirEvents : Obligations.EnginesEmitOnlyTheirEvents := by
  intro i s e hcur
  refine ⟨resultOf i e, exec_eq hcur i, ?_⟩
  rcases result_trace_cases i e with ⟨htrace, _⟩ | ⟨hk, hdone, _⟩
  · rw [htrace]
    exact fun ev hev => absurd hev List.not_mem_nil
  · rw [hk]
    exact hdone.allowed

end Sys2Proof.Machine
end

section
/-! PROOFS. The state of the engines (10_state.md): parameters and invariants through a step (R22, R37), what a command leaves
unchanged (R25 to R34), and the register window (R35). -/

namespace Sys2Proof.Machine

/-! The step. -/

/-- Wiring depends on the engines of the system only. -/
theorem wire_of_engines {s t : State} (h : t.engines = s.engines) (e : Engine) : t.wire e = s.wire e := by
  simp only [State.wire, State.wiredInputs, h]

/-- The invariants speak of the engines of the system only. -/
theorem inv_of_engines {s t : State} (h : t.engines = s.engines) (hs : s.Inv) : t.Inv := by
  unfold State.Inv
  rwa [h]

/-- Replacing an engine by one that meets the invariants keeps those of the system. -/
theorem inv_set {s t : State} {k : Nat} {x : Engine} (hs : s.Inv) (hx : x.Inv) (ht : t.engines = s.engines.set k x) :
    t.Inv := by
  intro y hy
  rw [ht] at hy
  rcases List.mem_or_eq_of_mem_set hy with hy | rfl
  · exact hs y hy
  · exact hx

/-- An action that answers a next state keeps the invariants, where every N is at least 1 (R7). -/
theorem perform_inv {a : Action} {s t : State} (hs : s.Inv) (hn : ∀ e ∈ s.engines, 1 ≤ e.params.n)
    (h : State.perform a s = .next t) : t.Inv := by
  rcases perform_cases h with ⟨heng, _⟩ | ⟨k, e, x, hk, _, heng, _, hx⟩
  · exact inv_of_engines heng hs
  · have hmem : e ∈ s.engines := List.mem_of_getElem? hk
    have he : e.Inv := hs e hmem
    refine inv_set hs ?_ heng
    rcases hx with rfl | ⟨i, rfl⟩ | rfl | ⟨j, v, rfl⟩ | rfl | ⟨b, hb, rfl⟩
    · exact illegal_inv (wire_inv hs he)
    · exact result_inv (wire_inv hs he) (by rw [wire_params]; exact hn e hmem) i
    · exact he
    · exact memWrite_inv he j v
    · exact atReset_inv e.params e.fresh he.attached_fits
    · exact with_attached_inv he hb

/-- Settles O10: an idle step keeps the state, and `perform_inv` is the step with an action to come. -/
theorem stepKeepsTheInvariants : Obligations.StepKeepsTheInvariants := by
  intro s t hs hstep
  obtain ⟨hadm, ⟨_, rfl⟩ | ⟨a, rest, _, hperf⟩⟩ := step_cases hstep
  · exact hs
  · exact perform_inv (s := { s with pending := rest, busRead := none }) (inv_of_engines rfl hs)
      (fun e he => (admitted_engine hadm he).1) hperf

/-- No action writes a parameter: every engine it can leave has those of the engine it replaces. -/
theorem perform_params {a : Action} {s t : State} (h : State.perform a s = .next t) :
    t.engines.map Engine.params = s.engines.map Engine.params := by
  rcases perform_cases h with ⟨heng, _⟩ | ⟨k, e, x, hk, _, heng, _, hx⟩
  · rw [heng]
  · have hparams : x.params = e.params := by
      rcases hx with rfl | ⟨i, rfl⟩ | rfl | ⟨j, v, rfl⟩ | rfl | ⟨b, _, rfl⟩
      · exact wire_params s e
      · exact (result_params i _).trans (wire_params s e)
      · rfl
      · rfl
      · rfl
      · rfl
    rw [heng, map_params_set hk hparams]

/-- Settles O9, by `perform_params`. -/
theorem parametersNeverChange : Obligations.ParametersNeverChange := by
  intro s t hstep
  obtain ⟨_, ⟨_, rfl⟩ | ⟨a, rest, _, hperf⟩⟩ := step_cases hstep
  · rfl
  · exact perform_params (s := { s with pending := rest, busRead := none }) hperf

/-- A write to CMD of a word that decodes is exec of its command, once the engine is the current one. -/
theorem issue_of_decode {s : State} {k : Nat} {kind : Kind} {w : Word} {i : Instr} (h : decode kind w = .ok i) :
    s.issue k kind w = exec i (s.select k) := by
  simp only [State.issue, h]

/-- Wiring an engine with an input chip changes the inputs of the chip and nothing else (60_exceptions.md R220). -/
theorem wire_inputChip_eq {s : State} {e : Engine} {c : InputChip} (h : e.attached = .inputChip c) :
    s.wire e = { e with attached := .inputChip { c with inputs := s.wiredInputs e.params.n c } } := by
  rw [wire_frame, wire_inputChip h]

/-- Settles O5: the action is the CMD write of `perform_write_cmd`, and the wiring is as the lemmas on `State.wire` say. -/
theorem stepRunsTheDecodedCommand : Obligations.StepRunsTheDecodedCommand := by
  intro s k e w i rest hadm hpend hfind hk hdec
  refine ⟨?_, ?_, wire_unlooped, fun c => wire_inputChip_eq, ?_⟩
  · rw [step_action hadm hpend, perform_write_cmd (s := { s with pending := rest, busRead := none }) hfind hk,
      issue_of_decode hdec]
  · rw [select_current (s := { s with pending := rest, busRead := none }) hk]
    exact congrArg some (wire_of_engines rfl e)
  · intro c j o q _ hloop ho hq hn
    exact wiredInputs_loop hloop ho hq hn

/-- Settles O11: every engine of the reset state is at its reset values (`atReset_inv`), on two disjoint windows and sets of
lines. -/
theorem resetMeetsTheInvariants : Obligations.ResetMeetsTheInvariants := by
  refine ⟨fun e he => ?_, by decide⟩
  simp only [State.reset, List.mem_cons, List.not_mem_nil, or_false] at he
  rcases he with rfl | rfl
  · exact atReset_inv Config.iecParams 0 rfl
  · exact atReset_inv Config.oecParams 0 rfl

/-! What a command leaves unchanged. -/

/-- The registers and arrays that a command does not name are as they were (R25, R26, R28, R30). -/
theorem result_frame (i : Instr) (e : Engine) :
    (writesRdata i = false → (resultOf i e).rdata = e.rdata) ∧
    ((∀ len, i ≠ .inReadall len) → (resultOf i e).xbuf = e.xbuf) ∧
    (writesChain i = false → (resultOf i e).cache = e.cache) ∧
    (i.isInit = false → (resultOf i e).ready = e.ready) := by
  rcases result_cases i e with ⟨_, hr⟩ | ⟨_, _, _, hr⟩ | ⟨_, _, hr⟩ | ⟨_, _, evs, hr⟩
  · rw [hr]
    exact ⟨fun _ => rfl, fun _ => rfl, fun _ => rfl, fun _ => rfl⟩
  · rw [hr]
    exact ⟨fun _ => rfl, fun _ => rfl, fun _ => rfl, fun _ => rfl⟩
  · rw [hr.eq]
    refine ⟨fun hw => ?_, fun _ => rfl, fun _ => rfl, fun hi => ?_⟩
    · simp [hw]
    · have hown : ownStatus i e.begin ≠ 0x04#32 := fun h => absurd (own_config h) (by simp [hi])
      simp [hown]
  · refine ⟨hr.rdata_same, hr.xbuf_same, hr.cache_same, fun hi => ?_⟩
    rw [hr.eq]
    simp [hi]

/-- An OEC command never drives the load line (R29). -/
theorem result_loadQ_of_oec {i : Instr} (h : i.kind = .oec) (e : Engine) : (resultOf i e).loadQ = e.loadQ := by
  rcases result_cases i e with ⟨_, hr⟩ | ⟨_, _, _, hr⟩ | ⟨_, _, hr⟩ | ⟨_, _, evs, hr⟩
  · rw [hr]
  · rw [hr]
  · rw [hr.eq]
    rfl
  · have hev := hr.allowed
    rw [h] at hev
    rw [hr.eq]
    exact (emits_other_levels _ evs e.begin).2 hev

/-- OUT.INIT is the only init command of an OEC (R140). -/
theorem isInit_of_oec {i : Instr} (h : i.kind = .oec) (hi : i ≠ .outInit) : i.isInit = false := by
  revert h hi
  cases i <;> simp [Instr.kind, Instr.isInit]

/-- No OEC command writes RDATA (R25). -/
theorem writesRdata_of_oec {i : Instr} (h : i.kind = .oec) : writesRdata i = false := by
  revert h
  cases i <;> simp [Instr.kind, writesRdata]

/-- Settles O50: the frame of all commands (`result_frame`), read for those of the OEC. -/
theorem outputCommandsWriteOnlyTheirOwnState : Obligations.OutputCommandsWriteOnlyTheirOwnState := by
  intro i s e hkind hcur
  refine ⟨resultOf i e, exec_eq hcur i, ?_⟩
  obtain ⟨hrdata, hxbuf, hcache, hready⟩ := result_frame i e
  have hnotRead : ∀ len, i ≠ .inReadall len := by
    rintro len rfl
    cases hkind
  apply Engine.ext
  case params => exact result_params i e
  case rdata => exact hrdata (writesRdata_of_oec hkind)
  case xbuf => exact hxbuf hnotRead
  case loadQ => exact result_loadQ_of_oec hkind e
  case ready =>
    by_cases hi : i = .outInit
    · simp [hi]
    · simpa [hi] using hready (isInit_of_oec hkind hi)
  case cache =>
    by_cases hw : writesChain i = true
    · simp [hw]
    · simpa [hw] using hcache (by simpa using hw)
  all_goals rfl

/-- The engine a command leaves does not depend on the STATUS before (R34). -/
theorem result_withStatus (x : Word) (i : Instr) (e : Engine) : resultOf i (withStatus x e) = resultOf i e := by
  by_cases hk : e.params.kind = i.kind
  · by_cases hacc : i.isInit = true ∨ e.ready = true
    · rw [resultOf_body hk hacc, resultOf_body (e := withStatus x e) hk hacc]
      exact body_withStatus x i e.begin
    · obtain ⟨hi, hr⟩ : i.isInit = false ∧ e.ready = false := by simpa using hacc
      rw [resultOf_not_ready hk hi hr, resultOf_not_ready (e := withStatus x e) hk hi hr]
      rfl
  · rw [resultOf_foreign hk, resultOf_foreign (e := withStatus x e) hk]
    rfl

/-- Settles O51: both runs put the same engine back (`result_withStatus`). -/
theorem noCommandReadsStatus : Obligations.NoCommandReadsStatus := by
  intro i s e x hcur
  rw [exec_eq hcur, exec_eq (current_put hcur _), put_put]
  exact next_put_congr (result_withStatus x i e)

/-! The register window (R35, 20_memory.md R51). -/

/-- A byte on the host's bus is zero-extended (20_memory.md R51). -/
theorem byteWord_eq_setWidth (b : Byte) : byteWord b = b.setWidth 32 := by
  rw [BitVec.setWidth_eq_append (by omega)]
  rfl

/-- INFO bit by bit (R27). -/
theorem getLsbD_info (e : Engine) (j : Nat) : e.info.getLsbD j =
    if j < 16 then (BitVec.ofNat 16 e.params.n).getLsbD j
    else if j = 16 then kindBit e.params.kind
    else if j = 17 then e.ready
    else false := by
  unfold Engine.info
  simp only [BitVec.getLsbD_append]
  obtain h | rfl | rfl | h : j < 16 ∨ j = 16 ∨ j = 17 ∨ 18 ≤ j := by omega
  · have hlow : j < 18 ∧ j < 17 := by omega
    simp [h, hlow]
  · simp
  · simp
  · have hhigh : ¬ j < 18 ∧ ¬ j < 16 ∧ j ≠ 16 ∧ j ≠ 17 := by omega
    simp [hhigh]

/-- The fields of INFO: N, KIND, READY, and 0 above (R27). -/
theorem info_fields (e : Engine) :
    e.info.extractLsb' 0 16 = BitVec.ofNat 16 e.params.n ∧ e.info.getLsbD 16 = decide (e.params.kind = .oec) ∧
    e.info.getLsbD 17 = e.ready ∧ e.info.extractLsb' 18 14 = 0#14 := by
  refine ⟨?_, ?_, ?_, ?_⟩
  · apply BitVec.eq_of_getLsbD_eq
    intro j hj
    rw [BitVec.getLsbD_extractLsb', getLsbD_info]
    simp [hj]
  · rw [getLsbD_info]
    cases e.params.kind <;> rfl
  · rw [getLsbD_info]
    rfl
  · apply BitVec.eq_of_getLsbD_eq
    intro j hj
    have hhigh : ¬ 18 + j < 16 ∧ 18 + j ≠ 16 ∧ 18 + j ≠ 17 := by omega
    rw [BitVec.getLsbD_extractLsb', getLsbD_info]
    simp [hhigh]

theorem isRegisterAccess_iff {bits off : Nat} :
    isRegisterAccess bits off = true ↔ bits = 32 ∧ off < 0x0100 ∧ off % 4 = 0 := by
  simp [isRegisterAccess, and_assoc]

theorem isByteAccess_iff {bits off : Nat} :
    isByteAccess bits off = true ↔ bits = 8 ∧ 0x0100 ≤ off ∧ off < 0x2100 := by
  unfold isByteAccess windowSize
  simp only [Bool.and_eq_true, decide_eq_true_eq, and_assoc]

/-- An 8-bit access is no register access. -/
theorem isRegisterAccess_byte (off : Nat) : isRegisterAccess 8 off = false := rfl

/-- A reserved offset below XBUF reads 0. -/
theorem hostRead_reserved {off : Nat} (e : Engine) (h1 : 0x0010 ≤ off) (h2 : off < 0x0100) (h4 : off % 4 = 0) :
    e.hostRead 32 off = some 0#32 := by
  have hne : off ≠ 0 ∧ off ≠ 4 ∧ off ≠ 8 ∧ off ≠ 12 := by omega
  rw [Engine.hostRead, if_pos (isRegisterAccess_iff.mpr ⟨rfl, h2, h4⟩)]
  simp [hne]

/-- The 8-bit accesses read the bytes of XBUF, and 0 above them. -/
theorem hostRead_byte {off : Nat} (e : Engine) (h1 : 0x0100 ≤ off) (h2 : off < 0x2100) :
    e.hostRead 8 off = some (if off - 0x0100 < e.params.n then byteWord (e.memRead (off - 0x0100)) else 0#32) := by
  rw [Engine.hostRead, if_neg (by simp [isRegisterAccess_byte]), if_pos (isByteAccess_iff.mpr ⟨rfl, h1, h2⟩)]

/-- A write at an aligned register offset, which issues no command, is ignored. -/
theorem hostWrite_register {off : Nat} (e : Engine) (v : Word) (h1 : off < 0x0100) (h4 : off % 4 = 0) :
    e.hostWrite 32 off v = some e := by
  rw [Engine.hostWrite, if_pos (isRegisterAccess_iff.mpr ⟨rfl, h1, h4⟩)]

/-- A byte written above XBUF is ignored. -/
theorem hostWrite_above_xbuf {off : Nat} (e : Engine) (v : Word) (h1 : 0x0100 + e.params.n ≤ off) (h2 : off < 0x2100) :
    e.hostWrite 8 off v = some e := by
  rw [Engine.hostWrite, if_neg (by simp [isRegisterAccess_byte]),
    if_pos (isByteAccess_iff.mpr ⟨rfl, by omega, h2⟩), if_neg (by omega)]

/-- Settles O40: `step_read` at each offset, with what `Engine.hostRead` gives there. -/
theorem hostReadsReturnTheRegisters : Obligations.HostReadsReturnTheRegisters := by
  intro s k off bits e rest hadm hpend hfind hk hlen
  obtain ⟨_, hn, _⟩ := admitted_engine hadm (List.mem_of_getElem? hk)
  have hread : ∀ {v}, e.hostRead bits off = some v → step s = .next { s with pending := rest, busRead := some v } :=
    step_read hadm hpend hfind hk
  refine ⟨?_, ?_, ?_, ?_, ?_, ?_, ?_⟩
  · rintro rfl rfl
    exact hread rfl
  · rintro rfl rfl
    exact hread rfl
  · rintro rfl rfl
    exact hread rfl
  · rintro rfl rfl
    exact ⟨e.info, hread rfl, info_fields e⟩
  · rintro rfl h1 h2 h4
    exact hread (hostRead_reserved e h1 h2 h4)
  · rintro j b rfl rfl hb
    have hj : j < e.params.n := hlen ▸ (List.getElem?_eq_some_iff.mp hb).1
    apply hread
    rw [hostRead_byte e (by omega) (by omega), Nat.add_sub_cancel_left, if_pos hj, ← byteWord_eq_setWidth]
    simp [Engine.memRead, arrayByte, hb]
  · rintro rfl h1 h2
    apply hread
    rw [hostRead_byte e (by omega) h2, if_neg (by omega)]

/-- A host write that the engine ignores changes nothing but that the action is done. -/
theorem step_write_ignored {s : State} {k off bits : Nat} {e : Engine} {v : Word} {rest : List Action}
    (hadm : s.admitted = true) (hpend : s.pending = .write bits (e.params.base + off) v :: rest)
    (hfind : s.find (e.params.base + off) = some k) (hk : s.engines[k]? = some e) (hoff : off ≠ 0)
    (hw : e.hostWrite bits off v = some e) : step s = .next { s with pending := rest, busRead := none } := by
  have hset : s.engines.set k e = s.engines := by
    obtain ⟨hlt, rfl⟩ := List.getElem?_eq_some_iff.mp hk
    exact List.set_getElem_self hlt
  rw [step_action hadm hpend,
    perform_write_other (s := { s with pending := rest, busRead := none }) hfind hk (by omega),
    Nat.add_sub_cancel_left, hw]
  simp only [hset]

/-- Settles O42: at these offsets `Engine.hostWrite` gives the engine back. -/
theorem writesToReadOnlyOffsetsHaveNoEffect : Obligations.WritesToReadOnlyOffsetsHaveNoEffect := by
  intro s k off bits e v rest hadm hpend hfind hk hoff
  rcases hoff with ⟨rfl, h4, h1, h2⟩ | ⟨rfl, h1, h2⟩
  · exact step_write_ignored hadm hpend hfind hk (by omega) (hostWrite_register e v h2 h4)
  · exact step_write_ignored hadm hpend hfind hk (by omega) (hostWrite_above_xbuf e v h1 h2)

end Sys2Proof.Machine
end

section
/-! PROOFS. XBUF and CACHE, the order of bits on the data lines and the host's accesses (20_memory.md): positions and orders (R57,
R58), bytes of XBUF (R52), refused accesses (R53), the 16-bit word of two chips (R59), and actions on distinct engines (R63). -/

namespace Sys2Proof.Machine

/-! Positions and orders (R57, R58). -/

/-- Settles O31: `pos` keeps the chip of an index and mirrors its bit within the chip (`pos_lt`, `pos_pos`). -/
theorem samplePositionIsItsOwnInverse : Obligations.SamplePositionIsItsOwnInverse := by
  intro n i hi
  have hchip : pos i / 8 = i / 8 := by
    unfold pos
    omega
  exact ⟨rfl, by simpa [Nat.mul_comm] using pos_lt (n := n) (by omega), hchip, pos_pos i⟩

theorem drivenBits_append (xs ys : List Event) : drivenBits (xs ++ ys) = drivenBits xs ++ drivenBits ys := by
  induction xs with
  | nil => rfl
  | cons x xs ih => cases x <;> simp [drivenBits, ih]

/-- Shift steps put their bits on the data line, in order (R141). -/
theorem drivenBits_shiftEvents (u : Nat) (bs : List Bool) : drivenBits (bs.flatMap (shiftEvents u)) = bs := by
  induction bs with
  | nil => rfl
  | cons b bs ih =>
    rw [List.flatMap_cons, drivenBits_append, ih]
    rfl

/-- A full-chain write puts the bits of R143 on the data line; its latch pulse adds none. -/
theorem drivenBits_fullWrite (e : Engine) :
    drivenBits e.begin.fullWrite.trace = shiftedBits e.params.n e.cache := by
  rw [fullWrite_eq, emits_trace, begin_trace, List.nil_append, fullWriteEvents, drivenBits_append, drivenBits_shiftEvents]
  exact List.append_nil _

/-- The bit of a full-chain write at time `t` (R143). -/
theorem shiftedBits_getD {n t : Nat} (cache : List Byte) (ht : t < 8 * n) :
    (shiftedBits n cache).getD t false = byteBit (arrayByte cache (n - 1 - t / 8)) (7 - t % 8) := by
  simp [shiftedBits, ht]

/-- Settles O32: the data line carries `shiftedBits`; the place of bit index `i` in it is in the byte of chip `i / 8`, `7 - i % 8`
bits after its most significant bit. -/
theorem chainIsShiftedMostSignificantChipFirst : Obligations.ChainIsShiftedMostSignificantChipFirst := by
  intro e
  rw [drivenBits_fullWrite]
  refine ⟨by rw [shiftedBits_length, Nat.mul_comm], fun t ht => shiftedBits_getD _ (by omega), fun i hi => ?_⟩
  have hchip : e.params.n - 1 - (8 * (e.params.n - 1 - i / 8) + 7 - i % 8) / 8 = i / 8 := by omega
  have hbit : 7 - (8 * (e.params.n - 1 - i / 8) + 7 - i % 8) % 8 = i % 8 := by omega
  rw [shiftedBits_getD _ (by omega), hchip, hbit]

/-! The bytes of XBUF and the refused accesses (R52, R53). -/

/-- A byte written to XBUF is stored. -/
theorem hostWrite_xbuf {j : Nat} (e : Engine) (v : Word) (hj : j < e.params.n) (hn : e.params.n ≤ 8192) :
    e.hostWrite 8 (0x0100 + j) v = some (e.memWrite j (v.extractLsb' 0 8)) := by
  rw [Engine.hostWrite, if_neg (by simp [isRegisterAccess_byte]),
    if_pos (isByteAccess_iff.mpr ⟨rfl, by omega, by omega⟩), if_pos (by omega), Nat.add_sub_cancel_left]

/-- A byte of XBUF is read zero-extended. -/
theorem hostRead_xbuf {j : Nat} (e : Engine) (hj : j < e.params.n) (hn : e.params.n ≤ 8192) :
    e.hostRead 8 (0x0100 + j) = some ((arrayByte e.xbuf j).setWidth 32) := by
  rw [hostRead_byte e (by omega) (by omega), Nat.add_sub_cancel_left, if_pos hj, byteWord_eq_setWidth]
  rfl

/-- A host write that issues no command, with the engine it leaves. -/
theorem step_write {s : State} {k off bits : Nat} {e e' : Engine} {v : Word} {rest : List Action}
    (hadm : s.admitted = true) (hpend : s.pending = .write bits (e.params.base + off) v :: rest)
    (hfind : s.find (e.params.base + off) = some k) (hk : s.engines[k]? = some e) (hoff : off ≠ 0)
    (hw : e.hostWrite bits off v = some e') :
    step s = .next { s with pending := rest, busRead := none, engines := s.engines.set k e' } := by
  rw [step_action hadm hpend,
    perform_write_other (s := { s with pending := rest, busRead := none }) hfind hk (by omega),
    Nat.add_sub_cancel_left, hw]

/-- Settles O41: `step_write` stores the byte, and `step_read` on the engine it leaves reads it back. -/
theorem xbufByteReadsBackAsWritten : Obligations.XbufByteReadsBackAsWritten := by
  intro s k j e v rest hadm hpend hfind hk hlen hj
  simp only [Nat.add_assoc] at hpend hfind ⊢
  obtain ⟨_, hn, _⟩ := admitted_engine hadm (List.mem_of_getElem? hk)
  have hlt : k < s.engines.length := (List.getElem?_eq_some_iff.mp hk).1
  have hself : arrayByte (e.memWrite j (v.extractLsb' 0 8)).xbuf j = v.extractLsb' 0 8 :=
    arrayByte_set_self (by omega) _
  have hwrite := step_write hadm hpend hfind hk (by omega) (hostWrite_xbuf e v hj hn)
  refine ⟨_, e.memWrite j (v.extractLsb' 0 8), hwrite, rfl, rfl, memWrite_wf hlen j _, hself,
    fun i hi => arrayByte_set_other _ hi _, ?_⟩
  have hread := (hostRead_xbuf (e.memWrite j (v.extractLsb' 0 8)) hj hn).trans (by rw [hself])
  exact step_read (e := e.memWrite j (v.extractLsb' 0 8)) (admitted_of_step hwrite) rfl
    ((find_of_params (parametersNeverChange _ _ hwrite) _).trans hfind) (List.getElem?_set_self hlt) hread

/-- An access that is neither of the two of R53 is refused by the engine. -/
theorem hostAccess_refused {bits off : Nat} (e : Engine) (v : Word) (h32 : ¬ (bits = 32 ∧ off % 4 = 0 ∧ off < 0x0100))
    (h8 : ¬ (bits = 8 ∧ 0x0100 ≤ off)) : e.hostRead bits off = none ∧ e.hostWrite bits off v = none := by
  have hreg : ¬ isRegisterAccess bits off = true := fun h => by
    obtain ⟨hb, hlt, h4⟩ := isRegisterAccess_iff.mp h
    exact h32 ⟨hb, h4, hlt⟩
  have hbyte : ¬ isByteAccess bits off = true := fun h => by
    obtain ⟨hb, hle, _⟩ := isByteAccess_iff.mp h
    exact h8 ⟨hb, hle⟩
  exact ⟨by rw [Engine.hostRead, if_neg hreg, if_neg hbyte], by rw [Engine.hostWrite, if_neg hreg, if_neg hbyte]⟩

/-- A host access that finds no engine is refused. -/
theorem perform_access_of_find_none {s : State} {addr : Nat} (h : s.find addr = none) (bits : Nat) (v : Word) :
    State.perform (.read bits addr) s = .refused .badAccess ∧
    State.perform (.write bits addr v) s = .refused .badAccess := by
  simp [State.perform, h]

/-- Settles O43: an access outside every window finds no engine, and one of a wrong width or misaligned is refused by the engine
it finds. -/
theorem otherHostAccessesAreRefused : Obligations.OtherHostAccessesAreRefused := by
  intro s bits addr v a rest hadm ha hpend
  rw [step_action hadm hpend]
  constructor
  · intro hout
    have hcov : ∀ e ∈ s.engines, e.covers addr = false := fun e he =>
      Bool.eq_false_iff.mpr fun hc => by
        have hin := covers_iff.mp hc
        have := hout e he
        omega
    obtain ⟨hread, hwrite⟩ := perform_access_of_find_none
      (find_none (s := { s with pending := rest, busRead := none }) hcov) bits v
    rcases ha with rfl | rfl
    · exact hread
    · exact hwrite
  · intro k e hfind hk h32 h8
    obtain ⟨hread, hwrite⟩ := hostAccess_refused e v h32 h8
    rcases ha with rfl | rfl
    · rw [perform_read (s := { s with pending := rest, busRead := none }) hfind hk, hread]
    · have hcmd : ¬ (bits = 32 ∧ addr = e.params.base) := by
        rintro ⟨rfl, rfl⟩
        simp at h32
      rw [perform_write_other (s := { s with pending := rest, busRead := none }) hfind hk hcmd, hwrite]

/-! Actions on distinct engines (R63). -/

/-- What a word written to CMD leaves of its engine: the command it encodes, or BAD_COMMAND (30_encoding.md R75). -/
def Engine.afterWord (w : Word) (e : Engine) : Engine :=
  match decode e.params.kind w with
  | .ok i => resultOf i e
  | .error _ => e.illegal

/-- A write to CMD wires the engine's inputs (60_exceptions.md R220), runs the word on it, and leaves every other engine. -/
theorem issue_eq {s : State} {k : Nat} {e : Engine} (hk : s.engines[k]? = some e) (w : Word) :
    s.issue k e.params.kind w = .next { s with target := k, engines := s.engines.set k ((s.wire e).afterWord w) } := by
  unfold State.issue Engine.afterWord
  rw [wire_params, ← select_put hk]
  cases decode e.params.kind w with
  | ok i => exact exec_eq (select_current hk) i
  | error b => exact illegal_eq (select_current hk)

/-- Putting an engine back where it was changes nothing. -/
theorem set_same_engine {l : List Engine} {k : Nat} {e : Engine} (hk : l[k]? = some e) : l.set k e = l := by
  obtain ⟨hlt, rfl⟩ := List.getElem?_eq_some_iff.mp hk
  exact List.set_getElem_self hlt

/-- An action that answers a next state is about an engine that is there. -/
theorem engine_of_perform {a : Action} {s t : State} {k : Nat} (ha : a.engine s = some k)
    (h : State.perform a s = .next t) : ∃ e, s.engines[k]? = some e := by
  rw [← Option.isSome_iff_exists, Option.isSome_iff_ne_none]
  intro hk
  cases a with
  | write bits addr v => simp [State.perform, show s.find addr = some k from ha, hk] at h
  | read bits addr => simp [State.perform, show s.find addr = some k from ha, hk] at h
  | reset j =>
    obtain rfl := Option.some.inj ha
    simp [State.perform, hk] at h
  | environment j b =>
    obtain rfl := Option.some.inj ha
    simp [State.perform, hk] at h

/-- What an action does to its engine depends on that engine only, where it is not looped back: on two systems that have the same
engine there it leaves the same. -/
theorem perform_of_same_engine {a : Action} {s s' t : State} {k : Nat} (ha : a.engine s = some k)
    (ha' : a.engine s' = some k) (hsame : s'.engines[k]? = s.engines[k]?)
    (hloop : ∀ e, s.engines[k]? = some e → ∀ c, e.attached = .inputChip c → c.loop = none)
    (h : State.perform a s = .next t) :
    ∃ x t', t.engines = s.engines.set k x ∧ State.perform a s' = .next t' ∧ t'.engines = s'.engines.set k x := by
  obtain ⟨e, hk⟩ := engine_of_perform ha h
  have hk' : s'.engines[k]? = some e := hsame.trans hk
  cases a with
  | write bits addr v =>
    by_cases hcmd : bits = 32 ∧ addr = e.params.base
    · obtain ⟨rfl, rfl⟩ := hcmd
      rw [perform_write_cmd ha hk, issue_eq hk, wire_unlooped (hloop e hk)] at h
      rw [perform_write_cmd ha' hk', issue_eq hk', wire_unlooped (hloop e hk)]
      cases h
      exact ⟨_, _, rfl, rfl, rfl⟩
    · rw [perform_write_other ha hk hcmd] at h
      rw [perform_write_other ha' hk' hcmd]
      cases hw : e.hostWrite bits (addr - e.params.base) v with
      | none => simp [hw] at h
      | some x =>
        rw [hw] at h
        cases h
        exact ⟨x, _, rfl, rfl, rfl⟩
  | read bits addr =>
    rw [perform_read ha hk] at h
    rw [perform_read ha' hk']
    cases hr : e.hostRead bits (addr - e.params.base) with
    | none => simp [hr] at h
    | some v =>
      rw [hr] at h
      cases h
      exact ⟨e, _, (set_same_engine hk).symm, rfl, (set_same_engine hk').symm⟩
  | reset j =>
    obtain rfl := Option.some.inj ha
    simp only [State.perform, hk, hk'] at h ⊢
    cases h
    exact ⟨_, _, rfl, rfl, rfl⟩
  | environment j b =>
    obtain rfl := Option.some.inj ha
    simp only [State.perform, hk, hk'] at h ⊢
    split at h
    · rename_i hfit
      cases h
      exact ⟨_, _, rfl, if_pos hfit, rfl⟩
    · cases h

/-- An action that answers a next state leaves the actions to come. -/
theorem perform_pending {a : Action} {s t : State} (h : State.perform a s = .next t) : t.pending = s.pending := by
  rcases perform_cases h with ⟨_, hpend⟩ | ⟨_, _, _, _, _, _, hpend, _⟩
  · exact hpend
  · exact hpend

/-- The engine an action is about depends on the parameters of the system only. -/
theorem action_engine_of_params {s t : State} (h : t.engines.map Engine.params = s.engines.map Engine.params)
    (a : Action) : a.engine t = a.engine s := by
  cases a with
  | write bits addr v => exact find_of_params h addr
  | read bits addr => exact find_of_params h addr
  | reset k => rfl
  | environment k b => rfl

/-- Two actions on distinct engines leave the same engines in either order, whatever is to come in between. -/
theorem perform_swap {a b : Action} {s s' t t' u : State} {j k : Nat} (ha : a.engine s = some j)
    (hb : b.engine s = some k) (hjk : j ≠ k)
    (hloop : ∀ e ∈ s.engines, ∀ c, e.attached = .inputChip c → c.loop = none) (hs' : s'.engines = s.engines)
    (ht' : t'.engines = t.engines) (hst : State.perform a s = .next t) (htu : State.perform b t' = .next u) :
    ∃ v, State.perform b s' = .next v ∧
      ∀ v', v'.engines = v.engines → ∃ w, State.perform a v' = .next w ∧ w.engines = u.engines := by
  have hkt : s'.engines[k]? = t'.engines[k]? := by
    rw [hs', ht', (perform_other_engines ha hst).1 k hjk.symm]
  have hbt : b.engine t' = some k := by
    rw [action_engine_of_engines ht', action_engine_of_params (perform_params hst), hb]
  have hbs : b.engine s' = some k := (action_engine_of_engines hs' b).trans hb
  obtain ⟨y, v, hu, hsv, hv⟩ := perform_of_same_engine hbt hbs hkt
    (fun e he => hloop e (hs' ▸ List.mem_of_getElem? (hkt.trans he))) htu
  refine ⟨v, hsv, fun v' hv' => ?_⟩
  have hjv : v'.engines[j]? = s.engines[j]? := by
    rw [hv', (perform_other_engines hbs hsv).1 j hjk, hs']
  have hav : a.engine v' = some j := by
    rw [action_engine_of_engines hv', action_engine_of_params (perform_params hsv), action_engine_of_engines hs', ha]
  obtain ⟨x, w, ht, hvw, hw⟩ := perform_of_same_engine ha hav hjv
    (fun e he => hloop e (List.mem_of_getElem? he)) hst
  refine ⟨w, hvw, ?_⟩
  rw [hw, hv', hv, hs', hu, ht', ht, List.set_comm x y hjk]

/-- Settles O13: a step performs the first of the actions to come, and `perform_swap` takes the two in the other order. -/
theorem actionsOnDistinctEnginesCommute : Obligations.ActionsOnDistinctEnginesCommute := by
  intro s t u a b rest j k hpend ha hb hjk hloop hst htu
  obtain ⟨hadm, _⟩ := step_cases hst
  have hadmt := admitted_of_step hst
  rw [step_action hadm hpend] at hst
  have htpend : t.pending = b :: rest := perform_pending hst
  rw [step_action hadmt htpend] at htu
  obtain ⟨v, hsv, hswap⟩ := perform_swap (s := { s with pending := b :: rest, busRead := none })
    (s' := { s with pending := a :: rest, busRead := none }) (t := t)
    (t' := { t with pending := rest, busRead := none }) ha hb hjk hloop rfl rfl hst htu
  have hsv' : step { s with pending := b :: a :: rest } = .next v := by
    rw [step_action (s := { s with pending := b :: a :: rest }) hadm rfl]
    exact hsv
  have hvpend : v.pending = a :: rest := perform_pending hsv
  obtain ⟨w, hvw, heng⟩ := hswap { v with pending := rest, busRead := none } rfl
  refine ⟨v, w, hsv', by rw [step_action (admitted_of_step hsv') hvpend, hvw], heng, ?_⟩
  rw [perform_pending hvw, perform_pending htu]

/-! The word of two chips (R59) through the loopback wiring (60_exceptions.md R220). -/

/-- DATA16 of the word of OUT.WRITEWORD (30_encoding.md R72). -/
theorem data16Field_encode (data : Half) : data16Field (encode (.outWriteword data)) = data := by
  apply BitVec.eq_of_getLsbD_eq
  intro j hj
  simp only [data16Field, encode, Instr.operandBits, BitVec.getLsbD_extractLsb', BitVec.getLsbD_append]
  simp [hj]

/-- The word of OUT.WRITEWORD decodes to it (30_encoding.md R77). -/
theorem decode_outWriteword (data : Half) : decode .oec (encode (.outWriteword data)) = .ok (.outWriteword data) := by
  have hcmd : commandOf .oec (encode (.outWriteword data)) = some (.d16, .outWriteword data) := by
    simp [commandOf, opField_encode, Instr.opcode, data16Field_encode]
  have hres := (encoding_all (.outWriteword data)).2
  simp only [decode, hcmd]
  exact if_pos hres

/-- A CMD write of a command's word replaces the engine by what the command leaves of it (10_state.md R23). -/
theorem step_command {s : State} {k : Nat} {e : Engine} {w : Word} {i : Instr} {rest : List Action}
    (hadm : s.admitted = true) (hpend : s.pending = .write 32 e.params.base w :: rest)
    (hfind : s.find e.params.base = some k) (hk : s.engines[k]? = some e) (hdec : decode e.params.kind w = .ok i) :
    step s = .next
      { engines := s.engines.set k (resultOf i (s.wire e)), target := k, pending := rest, busRead := none } := by
  obtain ⟨hstep, hcur, _⟩ := stepRunsTheDecodedCommand s k e w i rest hadm hpend hfind hk hdec
  rw [hstep, exec_eq hcur, select_put (s := { s with pending := rest, busRead := none }) hk]

/-- The bits of the two bytes of DATA16, by bit index (R59). -/
theorem arrayBit_halfBytes {a : List Byte} (ha : a.length = 2) (data : Half) {i : Nat} (hi : i < 16) :
    arrayBit (setArrayByte (setArrayByte a 0 (lowByte data)) 1 (highByte data)) i = data.getLsbD i := by
  unfold arrayBit
  by_cases h : i < 8
  · have hc : chipOf i = 0 := by unfold chipOf; omega
    have hb : bitOf i = i := by unfold bitOf; omega
    rw [hc, hb, arrayByte_set_other _ (by omega), arrayByte_set_self (by omega)]
    simp [byteBit, lowByte, h]
  · have hc : chipOf i = 1 := by unfold chipOf; omega
    have hb : bitOf i = i - 8 := by unfold bitOf; omega
    rw [hc, hb, arrayByte_set_self (by simp [setArrayByte, ha])]
    have h8 : i - 8 < 8 ∧ 8 + (i - 8) = i := by omega
    simp [byteBit, highByte, h8]

/-- The bits of RDATA for two bytes, by bit index (R59). -/
theorem getLsbD_pairWord_array (a : List Byte) (i : Nat) :
    (pairWord (arrayByte a 0) (arrayByte a 1)).getLsbD i = (decide (i < 16) && arrayBit a i) := by
  rw [getLsbD_pairWord]
  unfold arrayBit byteBit
  by_cases h : i < 8
  · have hc : chipOf i = 0 := by unfold chipOf; omega
    have hb : bitOf i = i := by unfold bitOf; omega
    have h16 : i < 16 := by omega
    simp [h, h16, hc, hb]
  · by_cases h16 : i < 16
    · have hc : chipOf i = 1 := by unfold chipOf; omega
      have hb : bitOf i = i - 8 := by unfold bitOf; omega
      simp [h, h16, hc, hb]
    · simp [h, h16]

/-- OUT.WRITEWORD leaves the bits of DATA16 in the storage stage of the output chip (41_output_chain.md R154, R144). -/
theorem outWriteword_storage {e : Engine} {q : OutputChip} (hinv : e.Inv) (hkind : e.params.kind = .oec)
    (hready : e.ready = true) (hq : e.attached = .outputChip q) (hn : e.params.n = 2) (data : Half) :
    ∃ q', (resultOf (.outWriteword data) e).attached = .outputChip q' ∧
      q'.storage = (List.range 16).map data.getLsbD := by
  have hcache : e.cache.length = 2 := by
    have := hinv.other_kind
    simp only [Engine.otherKindUnused, hkind] at this
    exact this.2.2.trans hn
  have hshift : q.shift.length = 8 * e.params.n := by
    have := hinv.attached_fits
    simp only [hq, Attached.fits, Bool.and_eq_true, decide_eq_true_eq] at this
    exact this.1.2
  obtain ⟨_, _, hlatch, _⟩ := (kind_oec_lines hkind).mp (hinv.lines hready)
  rw [resultOf_body (i := .outWriteword data) hkind (.inr hready), bodyOf, outWriteword_ok (e := e.begin) hn, finish_attached]
  refine ⟨_, outputChip_fullWrite (c := q)
    (e := { e.begin with cache := setArrayByte (setArrayByte e.cache 0 (lowByte data)) 1 (highByte data) })
    hq hshift hlatch, ?_⟩
  simp only [begin_params, hn]
  exact List.map_congr_left fun i hi => arrayBit_halfBytes hcache data (List.mem_range.mp hi)

/-- IN.READWORD gives the inputs of the input chip by bit index (40_input_chain.md R113, R117). -/
theorem inReadword_inputs {e : Engine} {c : InputChip} (hkind : e.params.kind = .iec) (hready : e.ready = true)
    (hc : e.attached = .inputChip c) (hn : e.params.n = 2) :
    (resultOf .inReadword e).status = 0x00#32 ∧
    ∀ i, (resultOf .inReadword e).rdata.getLsbD i = (decide (i < 16) && c.inputs.getD i false) := by
  have hsamples : e.begin.loadPulse.nextSamples 16 = c.capture 2 := by
    have := inputChip_samples (e := e.begin) hc
    rwa [begin_params, hn] at this
  rw [resultOf_body (i := .inReadword) hkind (.inr hready), bodyOf, inReadword_ok (e := e.begin) hn, hsamples]
  refine ⟨rfl, fun i => ?_⟩
  rw [finish_rdata, getLsbD_pairWord_array]
  by_cases hi : i < 16
  · rw [arrayBit_packBytes 2 _ i (capture_length 2 c) hi, capture_pos c hi]
  · simp [hi]

/-- Settles O39: OUT.WRITEWORD leaves the value's bits in the storage stage, the wiring makes them the inputs of the input chip,
and IN.READWORD gives them back. -/
theorem loopbackWordRoundTripIsUnchanged : Obligations.LoopbackWordRoundTripIsUnchanged := by
  intro s o k eo ek q c data rest hadm hinv ho hk hko hki hro hrk hq hc hloop hno hnk hfo hfk hpend
  have hok : o ≠ k := by
    rintro rfl
    obtain rfl := Option.some.inj (ho.symm.trans hk)
    rw [hko] at hki
    cases hki
  obtain ⟨q', hq', hstorage⟩ :=
    outWriteword_storage (hinv eo (List.mem_of_getElem? ho)) hko hro hq hno data
  have hwrite := step_command hadm hpend hfo ho (by rw [hko]; exact decode_outWriteword data)
  rw [wire_outputChip hq] at hwrite
  generalize ht : State.mk _ _ _ _ = t at hwrite
  have hto : t.engines[o]? = some (resultOf (.outWriteword data) eo) := by
    rw [← ht]
    exact List.getElem?_set_self (List.getElem?_eq_some_iff.mp ho).1
  have htk : t.engines[k]? = some ek := by
    rw [← ht, ← hk]
    exact List.getElem?_set_ne hok
  have hread := step_command (i := .inReadword) (admitted_of_step hwrite) (by rw [← ht])
    ((find_of_params (parametersNeverChange _ _ hwrite) _).trans hfk) htk (by rw [hki]; decide)
  have hwired : (t.wire ek).attached = .inputChip { c with inputs := (List.range 16).map data.getLsbD } := by
    rw [wire_inputChip hc, wiredInputs_loop hloop hto hq' (by rw [result_params, hno, hnk]), hstorage]
  obtain ⟨hstatus, hrdata⟩ := inReadword_inputs (by rw [wire_params, hki]) (by rw [wire_ready, hrk]) hwired
    (by rw [wire_params, hnk])
  refine ⟨t, _, resultOf .inReadword (t.wire ek), hwrite, hread,
    List.getElem?_set_self (List.getElem?_eq_some_iff.mp htk).1, hstatus, ?_⟩
  apply BitVec.eq_of_getLsbD_eq
  intro i hi
  rw [hrdata, BitVec.getLsbD_setWidth]
  by_cases h : i < 16
  · simp [h, hi]
  · simp [h, BitVec.getLsbD_of_ge data i (by omega)]

end Sys2Proof.Machine
end

section
/-! PROOFS. The encoding (30_encoding.md): a word and the command it encodes determine each other (R71, R77), and a word that is no
command of an engine completes with BAD_COMMAND (R75). -/

namespace Sys2Proof

/-! The opcode map (R73), read in both directions. -/

/-- The command of the same row of R73, with the operands that a word has in the fields of its format (R72). -/
def Instr.withOperandsOf (w : Word) : Instr → Instr
  | .inInit => .inInit
  | .inLoad => .inLoad
  | .inReadbyte => .inReadbyte
  | .inReadword => .inReadword
  | .inReadall _ => .inReadall (countField w)
  | .inReadbit _ => .inReadbit (countField w)
  | .outInit => .outInit
  | .outEnable => .outEnable
  | .outDisable => .outDisable
  | .outWritebyte _ => .outWritebyte (data8Field w)
  | .outWriteword _ => .outWriteword (data16Field w)
  | .outWriteall _ => .outWriteall (countField w)
  | .outWritebit _ _ => .outWritebit (countField w) (valueField w)
  | .outDeinit => .outDeinit

/-- What the opcode map gives is a command of the engine's group with the word's opcode, its format, and the word's operands. -/
theorem commandOf_some {k : Kind} {w : Word} {f : Format} {i : Instr} (h : commandOf k w = some (f, i)) :
    i.kind = k ∧ opField w = i.opcode ∧ i.format = f ∧ i.withOperandsOf w = i := by
  cases k with
  | iec =>
    simp only [commandOf] at h
    split_ifs at h <;> cases h <;> exact ⟨rfl, ‹_›, rfl, rfl⟩
  | oec =>
    simp only [commandOf] at h
    split_ifs at h <;> cases h <;> exact ⟨rfl, ‹_›, rfl, rfl⟩

/-- The opcode map finds every command by its group and its opcode. -/
theorem commandOf_of_opcode {w : Word} {i : Instr} (hop : opField w = i.opcode) :
    commandOf i.kind w = some (i.format, i.withOperandsOf w) := by
  cases i <;> simp [commandOf, hop, Instr.kind, Instr.opcode, Instr.format, Instr.withOperandsOf]

/-- When a word decodes to a command (R77). -/
theorem decode_eq_ok_iff {k : Kind} {w : Word} {i : Instr} : decode k w = .ok i ↔
    i.kind = k ∧ opField w = i.opcode ∧ w &&& i.format.reservedMask = 0#32 ∧ i.withOperandsOf w = i := by
  constructor
  · intro h
    unfold decode at h
    split at h
    · cases h
    · next f j hcmd =>
      split at h
      · next hres =>
        cases h
        obtain ⟨hkind, hop, rfl, hread⟩ := commandOf_some hcmd
        exact ⟨hkind, hop, hres, hread⟩
      · cases h
  · rintro ⟨rfl, hop, hres, hread⟩
    rw [decode, commandOf_of_opcode hop, hread]
    exact if_pos hres

/-! From a word to its command and back. -/

theorem countField_lt (w : Word) : countField w < 65536 := (w.extractLsb' 8 16).isLt

/-- Operands read from a word fit their fields. -/
theorem withOperandsOf_wellFormed (w : Word) (i : Instr) : (i.withOperandsOf w).wellFormed = true := by
  cases i <;> simp [Instr.withOperandsOf, Instr.wellFormed, countField_lt]

/-- A word whose reserved bits are zero has no bits above the opcode but those of the operands read from it (R71). -/
theorem withOperandsOf_operandBits {w : Word} {i : Instr} (h : w &&& i.format.reservedMask = 0#32) :
    ∀ j, j < 24 → (i.withOperandsOf w).operandBits.getLsbD j = w.getLsbD (j + 8) := by
  cases i with
  | inInit | inLoad | inReadbyte | inReadword | outInit | outEnable | outDisable | outDeinit => exact bits_n h
  | inReadall | inReadbit | outWriteall =>
    simp only [Instr.withOperandsOf, Instr.operandBits, count_ofNat]
    exact bits_d16 h
  | outWriteword => exact bits_d16 h
  | outWritebyte => exact bits_d8 h
  | outWritebit =>
    simp only [Instr.withOperandsOf, Instr.operandBits, count_ofNat]
    exact bits_bv h

/-- DATA8 of the word of OUT.WRITEBYTE. -/
theorem data8Field_encode (data : Byte) : data8Field (encode (.outWritebyte data)) = data := by
  unfold data8Field encode Instr.operandBits
  rw [BitVec.extractLsb'_append_eq_of_le (by omega)]
  exact BitVec.extractLsb'_append_eq_right

/-- IDX of the word of OUT.WRITEBIT. -/
theorem countField_encode_outWritebit {idx : Nat} (v : Bool) (h : idx < 65536) :
    countField (encode (.outWritebit idx v)) = idx := by
  unfold countField encode Instr.operandBits
  rw [BitVec.extractLsb'_append_eq_of_le (by omega), BitVec.extractLsb'_append_eq_of_add_le (by omega),
    BitVec.extractLsb'_append_eq_right, BitVec.toNat_ofNat]
  exact Nat.mod_eq_of_lt h

/-- V of the word of OUT.WRITEBIT. -/
theorem valueField_encode (idx : Nat) (v : Bool) : valueField (encode (.outWritebit idx v)) = v := by
  unfold valueField encode Instr.operandBits
  rw [BitVec.getLsbD_append, BitVec.getLsbD_append, BitVec.getLsbD_append]
  simp

/-- The word of a command has the command's operands in its fields. -/
theorem withOperandsOf_encode {i : Instr} (h : i.wellFormed = true) : i.withOperandsOf (encode i) = i := by
  cases i with
  | inInit | inLoad | inReadbyte | inReadword | outInit | outEnable | outDisable | outDeinit => rfl
  | inReadall len => exact congrArg Instr.inReadall (count_encode16 len (of_decide_eq_true h) _)
  | inReadbit idx => exact congrArg Instr.inReadbit (count_encode16 idx (of_decide_eq_true h) _)
  | outWriteall len => exact congrArg Instr.outWriteall (count_encode16 len (of_decide_eq_true h) _)
  | outWriteword data => exact congrArg Instr.outWriteword (Machine.data16Field_encode data)
  | outWritebyte data => exact congrArg Instr.outWritebyte (data8Field_encode data)
  | outWritebit idx v =>
    exact congrArg₂ Instr.outWritebit (countField_encode_outWritebit v (of_decide_eq_true h)) (valueField_encode idx v)

/-- Settles O2: the command found (`decode_eq_ok_iff`) has the word's own operands, so its fields are in range and its bits are those
of the word. -/
theorem decodedWordIsItsCommandsWord : Obligations.DecodedWordIsItsCommandsWord := by
  intro k w i hdec
  obtain ⟨hkind, hop, hres, hread⟩ := decode_eq_ok_iff.mp hdec
  refine ⟨hkind, ?_, word_eq hop ?_⟩
  · rw [← hread]
    exact withOperandsOf_wellFormed w i
  · have hbits := withOperandsOf_operandBits hres
    rwa [hread] at hbits

/-- Settles O1: the word of a command has its opcode, zero reserved bits (`encoding_all`) and its operands; that no other word decodes
to it is O2. -/
theorem encodedCommandDecodesToItself : Obligations.EncodedCommandDecodesToItself := by
  intro i hwf
  obtain ⟨hop, hres⟩ := encoding_all i
  refine ⟨decode_eq_ok_iff.mpr ⟨rfl, hop, hres, withOperandsOf_encode hwf⟩, fun w hdec => ?_⟩
  obtain ⟨_, _, hword⟩ := decodedWordIsItsCommandsWord i.kind w i hdec
  exact hword.symm

/-- Settles O4: sixteen closed words, evaluated. -/
theorem specWordsDecodeAsListed : Obligations.SpecWordsDecodeAsListed := by
  unfold Obligations.SpecWordsDecodeAsListed
  and_intros <;> decide

/-! Illegal words (R75). -/

/-- The match and mask of a command's row in spec/opcode_table.json: the opcode, and the opcode's bits with the reserved ones. -/
def Instr.row (i : Instr) : Word × Word := (i.opcode.setWidth 32, i.format.reservedMask ||| 0x000000FF#32)

/-- The rows are those of the table of the command's group. -/
theorem row_mem_legalMasks (i : Instr) : i.row ∈ Machine.legalMasks i.kind := by
  cases i <;> dsimp only [Instr.row, Instr.kind, Instr.opcode, Instr.format] <;> decide

/-- The low byte of a word under its mask is OP (R70). -/
theorem and_255_eq_opField (w : Word) : w &&& 0x000000FF#32 = (opField w).setWidth 32 := by
  apply BitVec.eq_of_toNat_eq
  have hlow : w.toNat &&& 255 = w.toNat % 2 ^ 8 := Nat.and_two_pow_sub_one_eq_mod w.toNat 8
  have hfit : w.toNat % 2 ^ 8 % 2 ^ 32 = w.toNat % 2 ^ 8 := Nat.mod_eq_of_lt (by omega)
  simpa [opField, hlow] using hfit.symm

/-- A word that decodes matches the row of its command. -/
theorem match_row_of_decode {k : Kind} {w : Word} {i : Instr} (h : decode k w = .ok i) : w &&& i.row.2 = i.row.1 := by
  obtain ⟨_, hop, hres, _⟩ := decode_eq_ok_iff.mp h
  rw [Instr.row, BitVec.and_or_distrib_left, hres, BitVec.zero_or, and_255_eq_opField, hop]

/-- No illegal word decodes. -/
theorem decode_of_illegalOn {k : Kind} {w : Word} (h : Machine.illegalOn k w) : ∃ b, decode k w = .error b := by
  cases hdec : decode k w with
  | error b => exact ⟨b, rfl⟩
  | ok i =>
    obtain ⟨rfl, _⟩ := decode_eq_ok_iff.mp hdec
    exact absurd (match_row_of_decode hdec) (h _ (row_mem_legalMasks i))

namespace Machine

/-- A write to CMD of a word that does not decode completes it as illegal, once the engine is the current one. -/
theorem issue_of_error {s : State} {k : Nat} {kind : Kind} {w : Word} {b : BadWord} (h : decode kind w = .error b) :
    s.issue k kind w = (s.select k).illegal := by
  simp only [State.issue, h]

/-- Settles O3: an illegal word does not decode (`decode_of_illegalOn`), so the CMD write of `perform_write_cmd` completes it with
BAD_COMMAND on the engine as it is wired. -/
theorem illegalWordCompletesWithBadCommand : Obligations.IllegalWordCompletesWithBadCommand := by
  intro s k e w rest hadm hpend hfind hk hill
  obtain ⟨b, hdec⟩ := decode_of_illegalOn hill
  rw [step_action hadm hpend, perform_write_cmd (s := { s with pending := rest, busRead := none }) hfind hk,
    issue_of_error hdec, illegal_eq (select_current (s := { s with pending := rest, busRead := none }) hk),
    wire_of_engines (s := s) rfl]
  rfl

end Machine

end Sys2Proof
end

section
/-! PROOFS. The input expander controller (40_input_chain.md): what each command answers (R110 to R115), what it leaves unchanged and
what its results depend on (R105), and that with the reference input chip the reads agree (R117). -/

namespace Sys2Proof.Machine

/-! The checks of R100. -/

/-- A command that the engine accepts runs its body. -/
theorem exec_of_accepted {i : Instr} {s : State} {e : Engine} (hcur : s.current = some e) (hkind : e.params.kind = i.kind)
    (hacc : i.isInit = true ∨ e.ready = true) : exec i s = .next (s.put (bodyOf i e.begin)) := by
  rw [exec_eq hcur, resultOf_body hkind hacc]

/-- A command other than init on an engine with READY = 0 writes NOT_READY and emits nothing. -/
theorem exec_of_not_ready {i : Instr} {s : State} {e : Engine} (hcur : s.current = some e) (hkind : e.params.kind = i.kind)
    (hi : i.isInit = false) (hr : e.ready = false) :
    exec i s = .next (s.put { e with status := 0x06#32, trace := [] }) := by
  rw [exec_eq hcur, resultOf_not_ready hkind hi hr]
  rfl

/-! The commands without a sample (R110, R111). -/

/-- IN.INIT with its capabilities bound: its three events, which leave both lines low. -/
theorem inInit_done {e : Engine} (h : capabilitiesPresent .iec e.params.bound = true) : e.inInit =
    { e with
      ready := true, status := 0x00#32, loadQ := .low, clkQ := .low
      trace := e.trace ++ [.gpioInit, .setClock false, .setLoad false]
      fresh := (e.emits [.gpioInit, .setClock false, .setLoad false]).fresh
      attached := (e.emits [.gpioInit, .setClock false, .setLoad false]).attached } := by
  rw [inInit_ok h, emits_frame]
  rfl

/-- Settles O14: `inInit_done` and `inInit_fail` on the engine at the start of the command. -/
theorem inInitChecksCapabilitiesThenInitialises : Obligations.InInitChecksCapabilitiesThenInitialises := by
  intro s e hcur hkind
  rw [exec_of_accepted (i := .inInit) hcur hkind (.inl rfl), bodyOf]
  constructor
  · intro hcap
    rw [inInit_done (e := e.begin) hcap]
    exact ⟨_, _, rfl⟩
  · intro hcap
    rw [inInit_fail (e := e.begin) hcap]
    rfl

/-- Settles O15: IN.LOAD is the load pulse (`loadPulse_frame`). -/
theorem inLoadEmitsOneLoadPulse : Obligations.InLoadEmitsOneLoadPulse := by
  intro s e hcur hkind
  refine ⟨fun hr => ?_, exec_of_not_ready hcur hkind rfl⟩
  rw [exec_of_accepted (i := .inLoad) hcur hkind (.inr hr), bodyOf, Engine.inLoad, loadPulse_frame]
  exact ⟨_, _, rfl⟩

/-! The chain reads (R112 to R114). -/

/-- An engine after a chain read of `m` samples that ended with OK, with what the command stored in RDATA and XBUF. -/
def Engine.chainReadDone (m : Nat) (rd : Word) (xb : List Byte) (e : Engine) : Engine :=
  { e with
    status := 0x00#32, rdata := rd, xbuf := xb, loadQ := .low, clkQ := .high
    trace := e.trace ++ (loadEvents e.params.delayUnit ++
      (e.loadPulse.nextSamples m).flatMap (sampleEvents e.params.delayUnit))
    fresh := (e.loadPulse.afterSamples m).fresh
    attached := (e.loadPulse.afterSamples m).attached }

/-- RDATA of IN.READBYTE, from its samples. -/
def readbyteWord (ds : List Bool) : Word := byteWord (arrayByte (packBytes 1 ds) 0)

/-- RDATA of IN.READWORD, from its samples. -/
def readwordWord (ds : List Bool) : Word := pairWord (arrayByte (packBytes 2 ds) 0) (arrayByte (packBytes 2 ds) 1)

theorem inReadbyte_done {e : Engine} (h : e.params.n = 1) :
    e.inReadbyte = e.chainReadDone 8 (readbyteWord (e.loadPulse.nextSamples 8)) e.xbuf := by
  rw [inReadbyte_ok h, read_frame 8 (by omega) e]
  rfl

theorem inReadword_done {e : Engine} (h : e.params.n = 2) :
    e.inReadword = e.chainReadDone 16 (readwordWord (e.loadPulse.nextSamples 16)) e.xbuf := by
  rw [inReadword_ok h, read_frame 16 (by omega) e]
  rfl

theorem inReadall_done {e : Engine} (hx : e.xbuf.length = e.params.n) (hn : 1 ≤ e.params.n) :
    e.inReadall e.params.n = e.chainReadDone (8 * e.params.n) e.rdata
      (packBytes e.params.n (e.loadPulse.nextSamples (8 * e.params.n))) := by
  rw [inReadall_ok hx, read_frame (8 * e.params.n) (by omega) e]
  rfl

/-- The bits of RDATA for one byte, by bit index (R112). -/
theorem getLsbD_byteWord_array (a : List Byte) (i : Nat) :
    (byteWord (arrayByte a 0)).getLsbD i = (decide (i < 8) && arrayBit a i) := by
  rw [getLsbD_byteWord]
  by_cases h : i < 8
  · have hchip : chipOf i = 0 := Nat.div_eq_of_lt h
    have hbit : bitOf i = i := Nat.mod_eq_of_lt h
    rw [arrayBit, hchip, hbit, byteBit]
  · simp [h]

/-- RDATA of IN.READBYTE by bit index: the sample at the index's position, and 0 above. -/
theorem getLsbD_readbyteWord {ds : List Bool} (hlen : ds.length = 8) (i : Nat) :
    (readbyteWord ds).getLsbD i = (decide (i < 8) && ds.getD (pos i) false) := by
  rw [readbyteWord, getLsbD_byteWord_array]
  by_cases hi : i < 8
  · rw [arrayBit_packBytes 1 ds i hlen hi]
  · simp [hi]

/-- RDATA of IN.READWORD by bit index: the sample at the index's position, and 0 above. -/
theorem getLsbD_readwordWord {ds : List Bool} (hlen : ds.length = 16) (i : Nat) :
    (readwordWord ds).getLsbD i = (decide (i < 16) && ds.getD (pos i) false) := by
  rw [readwordWord, getLsbD_pairWord_array]
  by_cases hi : i < 16
  · rw [arrayBit_packBytes 2 ds i hlen hi]
  · simp [hi]

/-- RDATA of IN.READWORD has nothing above bit 15. -/
theorem toNat_readwordWord_lt (ds : List Bool) : (readwordWord ds).toNat < 2 ^ 16 := by
  have hext : readwordWord ds = (arrayByte (packBytes 2 ds) 1 ++ arrayByte (packBytes 2 ds) 0).setWidth 32 :=
    (BitVec.setWidth_eq_append (by omega)).symm
  rw [hext, BitVec.toNat_setWidth_of_le (by omega)]
  exact BitVec.isLt _

/-- Settles O16: RDATA is the word of the eight samples, where bit `j` has position `7 - j` (`getLsbD_readbyteWord`). -/
theorem inReadbyteAssemblesEightSamples : Obligations.InReadbyteAssemblesEightSamples := by
  refine ⟨by decide, fun s e hcur hkind => ⟨fun hr hn => ?_, fun hr hn => ?_, exec_of_not_ready hcur hkind rfl⟩⟩
  · have hlen := nextSamples_length 8 e.begin.loadPulse
    rw [exec_of_accepted (i := .inReadbyte) hcur hkind (.inr hr), bodyOf, inReadbyte_done (e := e.begin) hn]
    refine ⟨_, _, _, _, hlen, fun j => ?_, rfl⟩
    rw [getLsbD_readbyteWord hlen]
    by_cases hj : j < 8
    · have hpos : pos j = 7 - j := by unfold pos; omega
      rw [hpos]
    · simp [hj]
  · rw [exec_of_accepted (i := .inReadbyte) hcur hkind (.inr hr), bodyOf, inReadbyte_fail (e := e.begin) hn]
    rfl

/-- Settles O17: RDATA is the word of the sixteen samples, where bit `j` has position `7 - j` or, in chip 1, `23 - j`
(`getLsbD_readwordWord`). -/
theorem inReadwordAssemblesSixteenSamples : Obligations.InReadwordAssemblesSixteenSamples := by
  refine ⟨by decide, fun s e hcur hkind => ⟨fun hr hn => ?_, fun hr hn => ?_, exec_of_not_ready hcur hkind rfl⟩⟩
  · have hlen := nextSamples_length 16 e.begin.loadPulse
    rw [exec_of_accepted (i := .inReadword) hcur hkind (.inr hr), bodyOf, inReadword_done (e := e.begin) hn]
    refine ⟨_, _, _, _, hlen, fun j hj => ?_, fun j hle hlt => ?_, toNat_readwordWord_lt _, rfl⟩
    · have hpos : pos j = 7 - j := by unfold pos; omega
      rw [getLsbD_readwordWord hlen, hpos]
      simp [show j < 16 by omega]
    · have hpos : pos j = 23 - j := by unfold pos; omega
      rw [getLsbD_readwordWord hlen, hpos]
      simp [hlt]
  · rw [exec_of_accepted (i := .inReadword) hcur hkind (.inr hr), bodyOf, inReadword_fail (e := e.begin) hn]
    rfl

/-- Sample `k` of a chain read is bit `7 - k % 8` of byte `k / 8` (R104). -/
theorem byteBit_packBytes {n k : Nat} {ds : List Bool} (hlen : ds.length = 8 * n) (hk : k < 8 * n) :
    byteBit (arrayByte (packBytes n ds) (k / 8)) (7 - k % 8) = ds.getD k false := by
  have hbit := arrayBit_packBytes n ds (pos k) hlen (pos_lt hk)
  have hchip : chipOf (pos k) = k / 8 := by unfold chipOf pos; omega
  have hj : bitOf (pos k) = 7 - k % 8 := by unfold bitOf pos; omega
  rwa [arrayBit, hchip, hj, pos_pos] at hbit

/-- Settles O18: XBUF holds the bytes of the samples (`byteBit_packBytes`). -/
theorem inReadallFillsXbuf : Obligations.InReadallFillsXbuf := by
  intro s e len hcur hkind hx hn
  refine ⟨?_, fun hr hlen => ?_, exec_of_not_ready hcur hkind rfl⟩
  · rintro hr rfl
    have hlen := nextSamples_length (8 * e.params.n) e.begin.loadPulse
    rw [exec_of_accepted (i := .inReadall e.params.n) hcur hkind (.inr hr), bodyOf,
      show e.begin.inReadall e.params.n = _ from inReadall_done (e := e.begin) hx hn]
    exact ⟨_, _, _, _, hlen, packBytes_length _ _, fun k hk => byteBit_packBytes hlen hk, rfl⟩
  · rw [exec_of_accepted (i := .inReadall len) hcur hkind (.inr hr), bodyOf, inReadall_fail (e := e.begin) hlen]
    rfl

/-! The single-bit read (R115). -/

theorem bitWord_eq (d : Bool) : bitWord d = if d then 1#32 else 0#32 := by
  cases d <;> rfl

/-- The bit that IN.READBIT samples: the one on the data line after the load pulse and the clock pulses to its position. -/
def Engine.bitAt (idx : Nat) (e : Engine) : Bool := (Engine.clockPulses (pos idx) e.loadPulse).dataLine

theorem inReadbit_done {e : Engine} {idx : Nat} (h : idx < e.params.n * 8) : e.inReadbit idx =
    { e with
      status := 0x00#32, rdata := if e.bitAt idx then 1#32 else 0#32, loadQ := .low
      clkQ := if pos idx = 0 then e.clkQ else .high
      trace := e.trace ++ (loadEvents e.params.delayUnit ++
        (List.replicate (pos idx) (clockEvents e.params.delayUnit)).flatten) ++ [.readData (e.bitAt idx)]
      fresh := (Engine.clockPulses (pos idx) e.loadPulse).fresh + 1
      attached := (Engine.clockPulses (pos idx) e.loadPulse).attachedAfter (.readData (e.bitAt idx)) } := by
  rw [inReadbit_ok h, ← Engine.bitAt, bitWord_eq, pulses_frame]
  rfl

/-- Settles O19: `inReadbit_done`, and RANGE_ERROR from 8N on. -/
theorem inReadbitClocksToTheTarget : Obligations.InReadbitClocksToTheTarget := by
  intro s e idx hcur hkind
  refine ⟨fun hr hidx => ?_, fun hr hidx => ?_, exec_of_not_ready hcur hkind rfl⟩
  · rw [exec_of_accepted (i := .inReadbit idx) hcur hkind (.inr hr), bodyOf, inReadbit_done (e := e.begin) hidx]
    exact ⟨_, _, _, rfl⟩
  · rw [exec_of_accepted (i := .inReadbit idx) hcur hkind (.inr hr), bodyOf, inReadbit_fail (e := e.begin) hidx]
    rfl

/-! The reads of the reference input chip (R117, 60_exceptions.md R216). -/

/-- IN.READBIT samples the input of its index. -/
theorem bitAt_inputChip {e : Engine} {c : InputChip} {i : Nat} (hc : e.attached = .inputChip c) (hi : i < 8 * e.params.n) :
    e.bitAt i = c.inputs.getD i false := by
  obtain ⟨hload, hlow⟩ := inputChip_loadPulse hc
  rw [Engine.bitAt, inputChip_clockPulses (pos i) hload hlow (by simpa [capture_length] using pos_lt hi)]
  exact capture_pos c hi

/-- Settles O34: the samples of a chain read are the captured inputs (`inputChip_samples`), which each read puts at their bit
indices; `bitAt_inputChip` is the single-bit read and `inReadword_inputs` the read of two chips. -/
theorem readsGiveTheInputsOfTheChip : Obligations.ReadsGiveTheInputsOfTheChip := by
  intro s e c hcur hkind hr hc _ hx
  have hsamples : e.begin.loadPulse.nextSamples (8 * e.params.n) = c.capture e.params.n := inputChip_samples (e := e.begin) hc
  refine ⟨⟨_, exec_of_accepted hcur hkind (.inr hr), ?_⟩, fun i hi => ⟨_, exec_of_accepted hcur hkind (.inr hr), ?_⟩,
    fun hn => ⟨_, exec_of_accepted hcur hkind (.inr hr), ?_⟩, fun hn => ⟨_, exec_eq hcur .inReadword, ?_⟩⟩
  · rw [bodyOf, show e.begin.inReadall e.params.n = _ from inReadall_ok (e := e.begin) hx, begin_params, hsamples]
    exact ⟨rfl, fun i hi => (arrayBit_packBytes _ _ i (capture_length _ c) hi).trans (capture_pos c hi)⟩
  · rw [bodyOf, inReadbit_done (e := e.begin) (by rw [begin_params]; omega), bitAt_inputChip (e := e.begin) hc hi]
    exact ⟨rfl, rfl⟩
  · rw [hn] at hsamples
    rw [bodyOf, inReadbyte_done (e := e.begin) hn, hsamples]
    refine ⟨rfl, fun i _ => (getLsbD_readbyteWord (capture_length 1 c) i).trans ?_⟩
    by_cases hi : i < 8
    · rw [capture_pos c hi]
    · simp [hi]
  · obtain ⟨hstatus, hrdata⟩ := inReadword_inputs hkind hr hc hn
    exact ⟨hstatus, fun i _ => hrdata i⟩

/-! What a command leaves unchanged (R105). -/

/-- An IEC command never drives a line of the OEC (R31). -/
theorem result_outputLines_of_iec {i : Instr} (h : i.kind = .iec) (e : Engine) :
    (resultOf i e).dataQ = e.dataQ ∧ (resultOf i e).latchQ = e.latchQ ∧ (resultOf i e).oeQ = e.oeQ := by
  rcases result_cases i e with ⟨_, hr⟩ | ⟨_, _, _, hr⟩ | ⟨_, _, hr⟩ | ⟨_, _, evs, hr⟩
  · rw [hr]
    exact ⟨rfl, rfl, rfl⟩
  · rw [hr]
    exact ⟨rfl, rfl, rfl⟩
  · rw [hr.eq]
    exact ⟨rfl, rfl, rfl⟩
  · have hev := hr.allowed
    rw [h] at hev
    rw [hr.eq]
    exact (emits_other_levels _ evs e.begin).1 hev

/-- IN.INIT is the only init command of an IEC (R100). -/
theorem isInit_of_iec {i : Instr} (h : i.kind = .iec) (hi : i ≠ .inInit) : i.isInit = false := by
  revert h hi
  cases i <;> simp [Instr.kind, Instr.isInit]

/-- No IEC command writes a chain. -/
theorem writesChain_of_iec {i : Instr} (h : i.kind = .iec) : writesChain i = false := by
  revert h
  cases i <;> simp [Instr.kind, writesChain]

/-- Settles O48: the frame of all commands (`result_frame`), read for those of the IEC. -/
theorem inputCommandsWriteOnlyTheirOwnState : Obligations.InputCommandsWriteOnlyTheirOwnState := by
  intro i s e hkind hcur
  refine ⟨resultOf i e, exec_eq hcur i, ?_⟩
  obtain ⟨hrdata, hxbuf, hcache, hready⟩ := result_frame i e
  obtain ⟨hdataQ, hlatchQ, hoeQ⟩ := result_outputLines_of_iec hkind e
  apply Engine.ext
  case params => exact result_params i e
  case cache => exact hcache (writesChain_of_iec hkind)
  case dataQ => exact hdataQ
  case latchQ => exact hlatchQ
  case oeQ => exact hoeQ
  case ready =>
    by_cases hi : i = .inInit
    · simp [hi]
    · simpa [hi] using hready (isInit_of_iec hkind hi)
  case rdata =>
    by_cases hw : writesRdata i = true
    · simp [hw]
    · simpa [hw] using hrdata (by simpa using hw)
  case xbuf =>
    dsimp only
    split
    · rfl
    · next hne => exact hxbuf hne
  all_goals rfl

/-! What the results of a command depend on (R105, 10_state.md R36). -/

/-- Two engines that agree in what the results of an IEC command depend on: parameters, READY, and the draws to come, at least 8N. -/
structure SameInputs (ds : List Bool) (e f : Engine) : Prop where
  params : f.params = e.params
  ready : f.ready = e.ready
  line : e.attached = .line ds
  line' : f.attached = .line ds
  enough : 8 * e.params.n ≤ ds.length
  width : 1 ≤ e.params.n
  xbuf : e.xbuf.length = e.params.n
  xbuf' : f.xbuf.length = e.params.n

/-- The results of a command: STATUS, READY, the trace, and RDATA and XBUF where it writes them. -/
structure SameResults (i : Instr) (x y : Engine) : Prop where
  status : y.status = x.status
  ready : y.ready = x.ready
  trace : y.trace = x.trace
  rdata : writesRdata i = true → x.status.toNat < 5 → y.rdata = x.rdata
  xbuf : ∀ len, i = .inReadall len → x.status = 0x00#32 → y.xbuf = x.xbuf

/-- On a data line under no law the single-bit read samples the next draw. -/
theorem bitAt_line {e : Engine} {d : Bool} {ds : List Bool} (h : e.attached = .line (d :: ds)) (idx : Nat) :
    e.bitAt idx = d := by
  have hline := line_clockPulses (pos idx) (line_loadPulse h)
  simp [Engine.bitAt, Engine.dataLine, hline]

section SameInputs

variable {ds : List Bool} {e f : Engine} (h : SameInputs ds e f)

include h

/-- A chain read takes the same samples. -/
theorem SameInputs.samples {m : Nat} (hm : m ≤ 8 * e.params.n) :
    f.loadPulse.nextSamples m = e.loadPulse.nextSamples m := by
  have hlen : m ≤ ds.length := hm.trans h.enough
  rw [line_read_samples h.line hlen, line_read_samples h.line' hlen]

/-- A single-bit read samples the same bit. -/
theorem SameInputs.bitAt (idx : Nat) : f.bitAt idx = e.bitAt idx := by
  have hlen : 1 ≤ ds.length := by
    have := h.enough
    have := h.width
    omega
  obtain ⟨d, ds', rfl⟩ := List.exists_cons_of_length_pos hlen
  rw [bitAt_line h.line, bitAt_line h.line']

/-- A command that the engine does not accept has the same results: the code, and no event. -/
theorem SameInputs.rejected (i : Instr) {c : Code} (hc : 5 ≤ c.statusWord.toNat) :
    SameResults i (e.begin.finish c) (f.begin.finish c) := by
  refine ⟨rfl, h.ready, rfl, fun _ hlt => absurd hlt (Nat.not_lt.mpr hc), fun _ _ hok => ?_⟩
  rw [show c.statusWord = 0x00#32 from hok] at hc
  exact absurd hc (by decide)

/-- A command's own check gives the same code: on an IEC it reads parameters only. -/
theorem SameInputs.own {i : Instr} (hkind : i.kind = .iec) : ownStatus i f = ownStatus i e := by
  cases i with
  | inInit | inLoad | inReadbyte | inReadword | inReadall | inReadbit => simp only [ownStatus, h.params]
  | outInit | outEnable | outDisable | outWritebyte | outWriteword | outWriteall | outWritebit | outDeinit => cases hkind

/-- A chain read that ends with OK has the same trace. -/
theorem SameInputs.chainRead_trace {m : Nat} (hm : m ≤ 8 * e.params.n) (htrace : f.trace = e.trace) (rd rd' : Word)
    (xb xb' : List Byte) : (f.chainReadDone m rd' xb').trace = (e.chainReadDone m rd xb).trace := by
  simp only [Engine.chainReadDone, htrace, h.params, h.samples hm]

/-- A body that ends with OK has the same trace and stores the same. -/
theorem SameInputs.body {i : Instr} (hkind : i.kind = .iec) (htrace : f.trace = e.trace) (hown : ownStatus i e = 0#32) :
    (bodyOf i f).trace = (bodyOf i e).trace ∧ (writesRdata i = true → (bodyOf i f).rdata = (bodyOf i e).rdata) ∧
    ∀ len, i = .inReadall len → (bodyOf i f).xbuf = (bodyOf i e).xbuf := by
  have hp := h.params
  cases i with
  | inInit =>
    have hcap : capabilitiesPresent .iec e.params.bound = true := by simpa [ownStatus] using hown
    rw [bodyOf, inInit_done hcap, inInit_done (hp ▸ hcap)]
    exact ⟨by rw [htrace], nofun, nofun⟩
  | inLoad =>
    refine ⟨?_, nofun, nofun⟩
    simp [bodyOf, Engine.inLoad, loadPulse_eq, htrace, hp]
  | inReadbyte =>
    have hn : e.params.n = 1 := by simpa [ownStatus] using hown
    rw [bodyOf, inReadbyte_done hn, inReadbyte_done (hp ▸ hn), h.samples (by omega)]
    exact ⟨h.chainRead_trace (by omega) htrace _ _ _ _, fun _ => rfl, nofun⟩
  | inReadword =>
    have hn : e.params.n = 2 := by simpa [ownStatus] using hown
    rw [bodyOf, inReadword_done hn, inReadword_done (hp ▸ hn), h.samples (by omega)]
    exact ⟨h.chainRead_trace (by omega) htrace _ _ _ _, fun _ => rfl, nofun⟩
  | inReadall len =>
    obtain rfl : len = e.params.n := by simpa [ownStatus] using hown
    have hf : f.inReadall e.params.n = _ := hp ▸ inReadall_done (e := f) (hp ▸ h.xbuf') (hp ▸ h.width)
    rw [bodyOf, inReadall_done h.xbuf h.width, hf, h.samples le_rfl]
    exact ⟨h.chainRead_trace le_rfl htrace _ _ _ _, nofun, fun _ _ => rfl⟩
  | inReadbit idx =>
    have hidx : idx < e.params.n * 8 := by simpa [ownStatus] using hown
    rw [bodyOf, inReadbit_done hidx, inReadbit_done (hp ▸ hidx), h.bitAt idx, hp, htrace]
    exact ⟨rfl, fun _ => rfl, nofun⟩
  | outInit | outEnable | outDisable | outWritebyte | outWriteword | outWriteall | outWritebit | outDeinit => cases hkind

end SameInputs

theorem early_of_own {i : Instr} {e : Engine} (h : ownStatus i e ≠ 0#32) : Early i e (bodyOf i e) := by
  rcases body_shape i e with hearly | ⟨_, hdone⟩
  · exact hearly
  · exact absurd hdone.own h

theorem done_of_own {i : Instr} {e : Engine} (h : ownStatus i e = 0#32) : ∃ evs, Done i e evs (bodyOf i e) := by
  rcases body_shape i e with hearly | hdone
  · exact absurd h hearly.own
  · exact hdone

/-- A read into RDATA that ends early clears it: its only codes are LENGTH_MISMATCH and RANGE_ERROR (R112, R113, R115). -/
theorem early_rdata {i : Instr} {e x : Engine} (h : Early i e x) (hw : writesRdata i = true) : x.rdata = 0#32 := by
  have hcode : ownStatus i e = 0x02#32 ∨ ownStatus i e = 0x03#32 := by
    cases i with
    | inReadbyte | inReadword => exact .inl (if_neg fun hn => h.own (if_pos hn))
    | inReadbit idx => exact .inr (if_pos (by_contra fun hidx => h.own (if_neg hidx)))
    | inInit | inLoad | inReadall | outInit | outEnable | outDisable | outWritebyte | outWriteword | outWriteall | outWritebit
    | outDeinit => cases hw
  rw [h.eq]
  exact if_pos ⟨hcode, hw⟩

/-- A data line under no law loses one draw for each sample of a command. -/
theorem result_line {i : Instr} {e : Engine} {ds : List Bool} (h : e.attached = .line ds) :
    (resultOf i e).attached = .line (ds.drop (samplesOf (resultOf i e).trace).length) := by
  rcases result_trace_cases i e with ⟨htrace, hatt⟩ | ⟨_, _, hatt⟩
  · rw [htrace, hatt, h]
    rfl
  · exact hatt.trans (emits_line _ h)

/-- An IEC command has the same results on engines with the same inputs, whichever way it ends. -/
theorem sameResults_of_sameInputs {i : Instr} {ds : List Bool} {e f : Engine} (hkind : i.kind = .iec)
    (h : SameInputs ds e f) : SameResults i (resultOf i e) (resultOf i f) := by
  by_cases hk : e.params.kind = i.kind
  · have hk' : f.params.kind = i.kind := h.params ▸ hk
    by_cases hacc : i.isInit = true ∨ e.ready = true
    · rw [resultOf_body hk hacc, resultOf_body hk' (h.ready ▸ hacc)]
      have hb : SameInputs ds e.begin f.begin := ⟨h.params, h.ready, h.line, h.line', h.enough, h.width, h.xbuf, h.xbuf'⟩
      by_cases hown : ownStatus i e.begin = 0#32
      · obtain ⟨htrace, hrdata, hxbuf⟩ := hb.body hkind rfl hown
        obtain ⟨_, hx⟩ := done_of_own hown
        obtain ⟨_, hy⟩ := done_of_own ((hb.own hkind).trans hown)
        refine ⟨by rw [done_status hx, done_status hy], ?_, htrace, fun hw _ => hrdata hw, fun len hi _ => hxbuf len hi⟩
        rw [hx.eq, hy.eq]
        simp [h.ready]
      · have hx := early_of_own hown
        have hy := early_of_own (hb.own hkind ▸ hown)
        refine ⟨by rw [early_status hx, early_status hy, hb.own hkind], ?_, by rw [hx.eq, hy.eq]; rfl,
          fun hw _ => (early_rdata hy hw).trans (early_rdata hx hw).symm,
          fun _ _ hst => absurd ((early_status hx).symm.trans hst) hown⟩
        rw [hx.eq, hy.eq]
        simp [hb.own hkind, h.ready]
    · obtain ⟨hi, hr⟩ : i.isInit = false ∧ e.ready = false := by simpa using hacc
      rw [resultOf_not_ready hk hi hr, resultOf_not_ready hk' hi (h.ready.trans hr)]
      exact h.rejected i (c := .notReady) (by decide)
  · rw [resultOf_foreign hk, resultOf_foreign (h.params ▸ hk)]
    exact h.rejected i (c := .badCommand) (by decide)

/-- Settles O49: the results are the same (`sameResults_of_sameInputs`), and the same trace uses up the same draws. -/
theorem inputResultsDependOnlyOnTheDraws : Obligations.InputResultsDependOnlyOnTheDraws := by
  intro i s t e f ds hkind hs ht hp hr he hf hlen hn hxe hxf
  obtain ⟨hstatus, hready, htrace, hrdata, hxbuf⟩ :=
    sameResults_of_sameInputs hkind (SameInputs.mk hp hr he hf hlen hn hxe (hp ▸ hxf))
  refine ⟨_, _, exec_eq hs i, exec_eq ht i, hstatus, hready, htrace, ?_, hrdata, hxbuf⟩
  rw [result_line he, result_line hf, htrace]

end Sys2Proof.Machine
end

section
/-! PROOFS. The output expander controller (41_output_chain.md): what each command answers (R150 to R157), what sequences of
OUT.WRITEBIT and of the enabling commands leave (R159, R160), and that a full-chain write reaches the reference output chip (R144;
60_exceptions.md R217, R218). -/

namespace Sys2Proof.Machine

/-! The reference output chip through the shift steps and the latch pulse (R144). -/

/-- Shift steps leave the storage stage of the output chip, however many bits they shift (60_exceptions.md R217, R218). -/
theorem outputChip_shiftOut_storage (bs : List Bool) : ∀ {e : Engine} {c : OutputChip}, e.attached = .outputChip c →
    ∃ c', (Engine.shiftOut bs e).attached = .outputChip c' ∧ c'.storage = c.storage := by
  induction bs with
  | nil =>
    intro e c h
    exact ⟨c, h, rfl⟩
  | cons b bs ih =>
    intro e c h
    obtain ⟨c', hc', hstorage⟩ := ih (outputChip_shiftStep h b)
    exact ⟨c', hc', hstorage⟩

/-- Settles O36: only the latch pulse reaches the storage stage (`outputChip_shiftOut_storage`, `outputChip_latchPulse`). -/
theorem shiftStepsLeaveTheStorageStage : Obligations.ShiftStepsLeaveTheStorageStage := by
  intro bs e c hc
  obtain ⟨c', hc', hstorage⟩ := outputChip_shiftOut_storage bs hc
  exact ⟨c', hc', hstorage, outputChip_latchPulse hc'⟩

/-! The enabling commands (R151, R152, R157, R160). -/

/-- No chip reacts to the output-enable line: driving it changes OE_Q only (60_exceptions.md R219). -/
theorem outputEnable_done (b : Bool) (e : Engine) : (e.emit (.setOutputEnable b)).finish .ok =
    { e with status := 0x00#32, oeQ := Level.ofBool b, trace := e.trace ++ [.setOutputEnable b], fresh := e.fresh + 1 } := by
  have hatt : e.attachedAfter (.setOutputEnable b) = e.attached := by
    unfold Engine.attachedAfter
    cases e.attached <;> rfl
  rw [Engine.emit, hatt]
  rfl

/-- What a command of R160 answers with READY = 1. -/
theorem exec_outputEnable {i : Instr} {b : Bool} {s : State} {e : Engine} (hcur : s.current = some e)
    (hkind : e.params.kind = i.kind) (hr : e.ready = true)
    (hbody : bodyOf i e.begin = (e.begin.emit (.setOutputEnable b)).finish .ok) :
    ∃ f a, exec i s = .next (s.put { e with
      status := 0x00#32, oeQ := Level.ofBool b, trace := [.setOutputEnable b], fresh := f, attached := a }) := by
  rw [exec_of_accepted hcur hkind (.inr hr), hbody, outputEnable_done]
  exact ⟨_, _, rfl⟩

/-- Settles O21: OUT.ENABLE drives the line to 1 (`exec_outputEnable`). -/
theorem outEnableDrivesTheEnableLine : Obligations.OutEnableDrivesTheEnableLine := fun _ _ hcur hkind =>
  ⟨fun hr => exec_outputEnable (i := .outEnable) hcur hkind hr rfl, exec_of_not_ready hcur hkind rfl⟩

/-- Settles O22: OUT.DISABLE drives the line to 0 (`exec_outputEnable`). -/
theorem outDisableReleasesTheEnableLine : Obligations.OutDisableReleasesTheEnableLine := fun _ _ hcur hkind =>
  ⟨fun hr => exec_outputEnable (i := .outDisable) hcur hkind hr rfl, exec_of_not_ready hcur hkind rfl⟩

/-- Settles O23: OUT.DEINIT drives the line to 0, and READY and CACHE are in the frame of `exec_outputEnable`. -/
theorem outDeinitKeepsReadyAndCache : Obligations.OutDeinitKeepsReadyAndCache := fun _ _ hcur hkind =>
  ⟨fun hr => exec_outputEnable (i := .outDeinit) hcur hkind hr rfl, exec_of_not_ready hcur hkind rfl⟩

/-- The body of a command of R160 drives the output-enable line and nothing else. -/
theorem bodyOf_togglesEnable {i : Instr} (h : togglesEnable i = true) :
    ∃ b, ∀ e, bodyOf i e = (e.emit (.setOutputEnable b)).finish .ok := by
  cases i with
  | outEnable => exact ⟨true, fun _ => rfl⟩
  | outDisable | outDeinit => exact ⟨false, fun _ => rfl⟩
  | inInit | inLoad | inReadbyte | inReadword | inReadall | inReadbit | outInit | outWritebyte | outWriteword | outWriteall
  | outWritebit => cases h

/-- Two engines that differ at most in STATUS, OE_Q, the trace and the model's count. -/
def Engine.SamePattern (e x : Engine) : Prop :=
  x = { e with status := x.status, oeQ := x.oeQ, trace := x.trace, fresh := x.fresh }

theorem Engine.SamePattern.attached {e x : Engine} (h : e.SamePattern x) : x.attached = e.attached := by
  unfold Engine.SamePattern at h
  rw [h]

theorem Engine.SamePattern.trans {e x y : Engine} (hx : e.SamePattern x) (hy : x.SamePattern y) : e.SamePattern y := by
  unfold Engine.SamePattern at *
  rw [hy, hx]

/-- However a command of R160 ends, it leaves the pattern. -/
theorem result_samePattern {i : Instr} (h : togglesEnable i = true) (e : Engine) : e.SamePattern (resultOf i e) := by
  unfold Engine.SamePattern
  by_cases hk : e.params.kind = i.kind
  · by_cases hacc : i.isInit = true ∨ e.ready = true
    · obtain ⟨b, hbody⟩ := bodyOf_togglesEnable h
      rw [resultOf_body hk hacc, hbody, outputEnable_done]
      rfl
    · obtain ⟨hi, hr⟩ : i.isInit = false ∧ e.ready = false := by simpa using hacc
      rw [resultOf_not_ready hk hi hr]
      rfl
  · rw [resultOf_foreign hk]
    rfl

/-- The engine a list of commands leaves. -/
def resultAll : List Instr → Engine → Engine
  | [], e => e
  | i :: is, e => resultAll is (resultOf i e)

theorem resultAll_append (is js : List Instr) : ∀ e, resultAll (is ++ js) e = resultAll js (resultAll is e) := by
  induction is with
  | nil => exact fun _ => rfl
  | cons i is ih => exact fun e => ih (resultOf i e)

/-- A list of commands always answers a next state on the current engine (20_memory.md R62). -/
theorem execAll_eq (is : List Instr) : ∀ {s : State} {e : Engine}, s.current = some e →
    execAll is s = .next (s.put (resultAll is e)) := by
  induction is with
  | nil =>
    intro s e hcur
    exact congrArg Host.Outcome.next (put_self hcur).symm
  | cons i is ih =>
    intro s e hcur
    have hrest := ih (current_put hcur (resultOf i e))
    rw [put_put] at hrest
    simp only [execAll, exec_eq hcur, hrest, resultAll]

theorem resultAll_samePattern (is : List Instr) (h : ∀ i ∈ is, togglesEnable i = true) :
    ∀ e : Engine, e.SamePattern (resultAll is e) := by
  induction is with
  | nil => exact fun _ => rfl
  | cons i is ih =>
    intro e
    exact (result_samePattern (h i List.mem_cons_self) e).trans (ih (fun j hj => h j (List.mem_cons_of_mem i hj)) _)

/-- Settles O30: each command leaves the pattern (`result_samePattern`), so a list of them does. -/
theorem enableTogglingKeepsThePattern : Obligations.EnableTogglingKeepsThePattern := by
  intro is s e hcur _ htog
  have hsame := resultAll_samePattern is htog e
  exact ⟨resultAll is e, execAll_eq is hcur, hsame.attached, hsame⟩

/-! The words of the commands with an operand (30_encoding.md R71). -/

/-- Two fields side by side, at another width: the upper one shifted over the lower one. -/
theorem setWidth_append_eq_or {m n : Nat} (w : Nat) (x : BitVec m) (y : BitVec n) :
    (x ++ y).setWidth w = y.setWidth w ||| x.setWidth w <<< n := by
  apply BitVec.eq_of_getLsbD_eq
  intro j hj
  simp only [BitVec.getLsbD_setWidth, BitVec.getLsbD_append, BitVec.getLsbD_or, BitVec.getLsbD_shiftLeft, hj,
    decide_true, Bool.true_and]
  by_cases h : j < n
  · simp [h]
  · have hlt : j - n < w := by omega
    simp [h, hlt, BitVec.getLsbD_of_ge y j (by omega)]

theorem setWidth_zero_append {n : Nat} (k w : Nat) (x : BitVec n) : (0#k ++ x).setWidth w = x.setWidth w := by
  simp [setWidth_append_eq_or]

/-- A count that fits its field (30_encoding.md R72) is the same number in a word. -/
theorem setWidth_ofNat_count {x : Nat} (h : x < 65536) : (BitVec.ofNat 16 x).setWidth 32 = BitVec.ofNat 32 x :=
  BitVec.setWidth_ofNat_of_le_of_lt (by omega) h

/-- A command's word is its opcode, with the operand bits from bit 8 on. -/
theorem encode_eq_or (i : Instr) : encode i = i.opcode.setWidth 32 ||| i.operandBits.setWidth 32 <<< 8 := by
  rw [← setWidth_append_eq_or]
  exact (BitVec.setWidth_eq _).symm

theorem encode_outWritebyte (data : Byte) :
    encode (.outWritebyte data) = 0x00000014#32 ||| (data.setWidth 32 <<< 8) := by
  rw [encode_eq_or, Instr.operandBits, setWidth_zero_append]
  rfl

theorem encode_outWriteword (data : Half) :
    encode (.outWriteword data) = 0x00000015#32 ||| (data.setWidth 32 <<< 8) := by
  rw [encode_eq_or, Instr.operandBits, setWidth_zero_append]
  rfl

theorem encode_outWriteall {len : Nat} (h : len < 65536) :
    encode (.outWriteall len) = 0x00000016#32 ||| (BitVec.ofNat 32 len <<< 8) := by
  rw [encode_eq_or, Instr.operandBits, setWidth_zero_append, setWidth_ofNat_count h]
  rfl

theorem encode_outWritebit {idx : Nat} (v : Bool) (h : idx < 65536) : encode (.outWritebit idx v) =
    0x00000017#32 ||| (BitVec.ofNat 32 idx <<< 8) ||| ((if v then 1#32 else 0#32) <<< 24) := by
  have hbit : (BitVec.ofBool v).setWidth 32 = if v then 1#32 else 0#32 := by cases v <;> rfl
  rw [encode_eq_or, Instr.operandBits, setWidth_zero_append, setWidth_append_eq_or, setWidth_ofNat_count h, hbit,
    BitVec.shiftLeft_or_distrib, ← BitVec.shiftLeft_add, ← BitVec.or_assoc]
  rfl

/-! The commands that write the chain (R150, R153 to R156). -/

/-- An engine after a full-chain write of a new CACHE that ended with OK (R143). -/
def Engine.chainWriteDone (ca : List Byte) (e : Engine) : Engine :=
  { e with
    status := 0x00#32, cache := ca
    dataQ := Level.ofBool (byteBit (arrayByte ca 0) 0), clkQ := .high, latchQ := .low
    trace := e.trace ++ fullWriteEvents e.params.delayUnit e.params.n ca
    fresh := (Engine.fullWrite { e with cache := ca }).fresh
    attached := (Engine.fullWrite { e with cache := ca }).attached }

theorem fullWrite_done {e : Engine} (hn : 1 ≤ e.params.n) (ca : List Byte) :
    (Engine.fullWrite { e with cache := ca }).finish .ok = e.chainWriteDone ca := by
  rw [write_frame { e with cache := ca } hn]
  rfl

/-- An engine after the five events of OUT.INIT and the full-chain write of zeros. -/
def Engine.outInitWrite (e : Engine) : Engine :=
  (e.emits outInitEvents).chainWriteDone (List.replicate e.params.n 0x00#8)

/-- OUT.INIT with its capabilities bound: its five events, then the full-chain write of zeros. -/
theorem outInit_done {e : Engine} (h : capabilitiesPresent .oec e.params.bound = true) (hn : 1 ≤ e.params.n) : e.outInit =
    { e with
      ready := true, status := 0x00#32, cache := List.replicate e.params.n 0x00#8
      dataQ := .low, clkQ := .high, latchQ := .low, oeQ := .low
      trace := e.trace ++ outInitEvents ++
        (List.replicate (8 * e.params.n) (shiftEvents e.params.delayUnit false)).flatten ++ latchEvents e.params.delayUnit
      fresh := e.outInitWrite.fresh
      attached := e.outInitWrite.attached } := by
  have hwrite : e.outInit = { e.outInitWrite with ready := true } := by
    rw [outInit_ok h, Engine.outInitWrite, ← fullWrite_done (by rwa [emits_params])]
    rfl
  have hlow : byteBit (arrayByte (List.replicate e.params.n 0x00#8) 0) 0 = false := by simp [arrayByte, byteBit]
  rw [hwrite]
  apply Engine.ext
  case trace => simp [Engine.outInitWrite, Engine.chainWriteDone, fullWriteEvents_zero]
  case dataQ => exact congrArg Level.ofBool hlow
  case fresh | attached => rfl
  all_goals simp [Engine.outInitWrite, Engine.chainWriteDone, outInitEvents, Engine.drive, Level.ofBool]

/-- Settles O20: `outInit_done` and `outInit_fail` on the engine at the start of the command. -/
theorem outInitChecksCapabilitiesThenPushesZeros : Obligations.OutInitChecksCapabilitiesThenPushesZeros := by
  intro s e hcur hkind hn
  rw [exec_of_accepted (i := .outInit) hcur hkind (.inl rfl), bodyOf]
  constructor
  · intro hcap
    rw [outInit_done (e := e.begin) hcap hn]
    exact ⟨_, _, rfl⟩
  · intro hcap
    rw [outInit_fail (e := e.begin) hcap]
    rfl

/-- Settles O24: the full-chain write of the one byte (`fullWrite_done`). -/
theorem outWritebyteStoresAndPushes : Obligations.OutWritebyteStoresAndPushes := by
  refine ⟨encode_outWritebyte, fun s e data hcur hkind hlen =>
    ⟨fun hr hn => ?_, fun hr hn => ?_, exec_of_not_ready hcur hkind rfl⟩⟩
  · have hcache : setArrayByte e.cache 0 data = [data] := by
      obtain ⟨b, hb⟩ := List.length_eq_one_iff.mp (hlen.trans hn)
      rw [hb]
      rfl
    rw [exec_of_accepted (i := .outWritebyte data) hcur hkind (.inr hr), bodyOf, outWritebyte_ok (e := e.begin) hn,
      begin_cache, hcache, fullWrite_done (e := e.begin) (by rw [begin_params]; omega), Engine.chainWriteDone, begin_params, hn]
    exact ⟨_, _, rfl⟩
  · rw [exec_of_accepted (i := .outWritebyte data) hcur hkind (.inr hr), bodyOf, outWritebyte_fail (e := e.begin) hn]
    rfl

/-- The bits of a full-chain write of the two bytes of DATA16: its bits from bit 15 down to bit 0 (R154). -/
theorem shiftedBits_halfBytes (data : Half) : shiftedBits 2 [lowByte data, highByte data] =
    [15, 14, 13, 12, 11, 10, 9, 8, 7, 6, 5, 4, 3, 2, 1, 0].map data.getLsbD := by
  have hlow : ∀ j, j < 8 → byteBit (lowByte data) j = data.getLsbD j := fun j hj => by simp [byteBit, lowByte, hj]
  have hhigh : ∀ j, j < 8 → byteBit (highByte data) j = data.getLsbD (8 + j) := fun j hj => by
    simp [byteBit, highByte, hj]
  simp [shiftedBits, List.range_succ, arrayByte, hlow, hhigh]

/-- Settles O25: the full-chain write of the two bytes (`fullWrite_done`), whose bits are those of DATA16
(`shiftedBits_halfBytes`). -/
theorem outWritewordStoresAndPushes : Obligations.OutWritewordStoresAndPushes := by
  refine ⟨encode_outWriteword, fun s e data hcur hkind hlen =>
    ⟨fun hr hn => ?_, fun hr hn => ?_, exec_of_not_ready hcur hkind rfl⟩⟩
  · have hcache : setArrayByte (setArrayByte e.cache 0 (lowByte data)) 1 (highByte data) =
        [lowByte data, highByte data] := by
      obtain ⟨b, c, hbc⟩ := List.length_eq_two.mp (hlen.trans hn)
      rw [hbc]
      rfl
    have hdata : byteBit (arrayByte [lowByte data, highByte data] 0) 0 = data.getLsbD 0 := by
      simp [arrayByte, byteBit, lowByte]
    rw [exec_of_accepted (i := .outWriteword data) hcur hkind (.inr hr), bodyOf, outWriteword_ok (e := e.begin) hn,
      begin_cache, hcache, fullWrite_done (e := e.begin) (by rw [begin_params]; omega), Engine.chainWriteDone, begin_params, hn,
      hdata, fullWriteEvents, shiftedBits_halfBytes]
    exact ⟨_, _, rfl⟩
  · rw [exec_of_accepted (i := .outWriteword data) hcur hkind (.inr hr), bodyOf, outWriteword_fail (e := e.begin) hn]
    rfl

/-- Settles O26: the full-chain write of the bytes of XBUF (`outWriteall_ok`, `fullWrite_done`). -/
theorem outWriteallCopiesXbufAndPushes : Obligations.OutWriteallCopiesXbufAndPushes := by
  refine ⟨fun len => encode_outWriteall, fun s e len hcur hkind hx hn =>
    ⟨?_, fun hr hlen => ?_, exec_of_not_ready hcur hkind rfl⟩⟩
  · rintro hr rfl
    rw [exec_of_accepted (i := .outWriteall e.params.n) hcur hkind (.inr hr), bodyOf,
      show e.begin.outWriteall e.params.n = _ from outWriteall_ok (e := e.begin) hx, fullWrite_done (e := e.begin) hn]
    exact ⟨_, _, rfl⟩
  · rw [exec_of_accepted (i := .outWriteall len) hcur hkind (.inr hr), bodyOf, outWriteall_fail (e := e.begin) hlen]
    rfl

/-! The single-bit write (R156, R159). -/

/-- OUT.WRITEBIT of a bit that is not yet in CACHE: the full-chain write of the new CACHE. -/
theorem result_outWritebit_ok {e : Engine} {idx : Nat} {v : Bool} (hkind : e.params.kind = .oec) (hr : e.ready = true)
    (hidx : idx < e.params.n * 8) (hv : arrayBit e.cache idx ≠ v) :
    resultOf (.outWritebit idx v) e = e.begin.chainWriteDone (setArrayBit e.cache idx v) := by
  rw [resultOf_body (i := .outWritebit idx v) hkind (.inr hr), bodyOf, outWritebit_ok (e := e.begin) hidx hv,
    fullWrite_done (e := e.begin) (by rw [begin_params]; omega)]
  rfl

/-- OUT.WRITEBIT of the bit that CACHE holds: UNCHANGED, and no event. -/
theorem result_outWritebit_same {e : Engine} {idx : Nat} {v : Bool} (hkind : e.params.kind = .oec) (hr : e.ready = true)
    (hidx : idx < e.params.n * 8) (hv : arrayBit e.cache idx = v) :
    resultOf (.outWritebit idx v) e = { e with status := 0x01#32, trace := [] } := by
  rw [resultOf_body (i := .outWritebit idx v) hkind (.inr hr), bodyOf, outWritebit_same (e := e.begin) hidx hv]
  rfl

/-- Settles O27: `result_outWritebit_ok` with the one bit of CACHE that changes (`arrayBit_setArrayBit`), or no event. -/
theorem outWritebitSuppressesAnUnchangedBit : Obligations.OutWritebitSuppressesAnUnchangedBit := by
  refine ⟨fun idx v => encode_outWritebit v, fun s e idx v hcur hkind hlen =>
    ⟨fun hr hidx hv => ?_, fun hr hidx hv => ?_, fun hr hidx => ?_, exec_of_not_ready hcur hkind rfl⟩⟩
  · rw [exec_eq hcur, result_outWritebit_ok hkind hr hidx hv]
    exact ⟨_, _, _, setArrayBit_wf hlen idx v,
      fun i _ => arrayBit_setArrayBit (k := i) hlen (by omega) v, rfl⟩
  · rw [exec_eq hcur, result_outWritebit_same hkind hr hidx hv]
  · rw [exec_of_accepted (i := .outWritebit idx v) hcur hkind (.inr hr), bodyOf, outWritebit_fail (e := e.begin) hidx]
    rfl

/-- However OUT.WRITEBIT ends on a ready engine, the engine stays ready, and CACHE has N bytes, with the one bit written. -/
theorem result_outWritebit_cache {e : Engine} {idx : Nat} (v : Bool) (hkind : e.params.kind = .oec) (hr : e.ready = true)
    (hlen : e.cache.length = e.params.n) (hidx : idx < e.params.n * 8) :
    (resultOf (.outWritebit idx v) e).ready = true ∧ (resultOf (.outWritebit idx v) e).cache.length = e.params.n ∧
    ∀ k, arrayBit (resultOf (.outWritebit idx v) e).cache k = if k = idx then v else arrayBit e.cache k := by
  by_cases hv : arrayBit e.cache idx = v
  · rw [result_outWritebit_same hkind hr hidx hv]
    refine ⟨hr, hlen, fun k => ?_⟩
    split
    · next hk => exact hk ▸ hv
    · rfl
  · rw [result_outWritebit_ok hkind hr hidx hv]
    exact ⟨hr, setArrayBit_wf hlen idx v, fun k => arrayBit_setArrayBit hlen (by omega) v⟩

/-- Settles O28: after the command the bit is in CACHE (`result_outWritebit_cache`), so the next one is UNCHANGED. -/
theorem outWritebitTwiceIsUnchanged : Obligations.OutWritebitTwiceIsUnchanged := by
  intro s e idx v hcur hkind hr hlen hidx
  have hp := result_params (.outWritebit idx v) e
  obtain ⟨hr', _, hbits⟩ := result_outWritebit_cache v hkind hr hlen hidx
  refine ⟨resultOf (.outWritebit idx v) e, exec_eq hcur _, ?_, ?_⟩
  · by_cases hv : arrayBit e.cache idx = v
    · rw [result_outWritebit_same hkind hr hidx hv]
      exact .inr rfl
    · rw [result_outWritebit_ok hkind hr hidx hv]
      exact .inl rfl
  · rw [exec_eq (current_put hcur _), put_put,
      result_outWritebit_same (hp ▸ hkind) hr' (hp ▸ hidx) ((hbits idx).trans (if_pos rfl))]

/-! A full-chain write reaches the reference output chip (R144; 60_exceptions.md R217, R218). -/

/-- An OEC that meets the invariants has a CACHE of N bytes (10_state.md R37). -/
theorem Engine.Inv.cache_length {e : Engine} (h : e.Inv) (hkind : e.params.kind = .oec) : e.cache.length = e.params.n := by
  have hother := h.other_kind
  simp only [Engine.otherKindUnused, hkind] at hother
  obtain ⟨_, _, hlen⟩ := hother
  exact hlen

/-- The output chip of an engine that meets the invariants has 8N places (60_exceptions.md R217). -/
theorem Engine.Inv.shift_length {e : Engine} {c : OutputChip} (h : e.Inv) (hc : e.attached = .outputChip c) :
    c.shift.length = 8 * e.params.n := by
  have hfit := h.attached_fits
  simp only [hc, Attached.fits, Bool.and_eq_true, decide_eq_true_eq] at hfit
  obtain ⟨⟨_, hshift⟩, _⟩ := hfit
  exact hshift

/-- The output chip with the bits of a CACHE of `n` bytes in both stages, by bit index. -/
def OutputChip.holding (n : Nat) (cache : List Byte) : OutputChip where
  shift := (List.range (8 * n)).map (arrayBit cache)
  storage := (List.range (8 * n)).map (arrayBit cache)

theorem holding_getElem? {n k : Nat} (cache : List Byte) (hk : k < 8 * n) :
    (OutputChip.holding n cache).storage[k]? = some (arrayBit cache k) ∧
    (OutputChip.holding n cache).shift[k]? = some (arrayBit cache k) := by
  simp [OutputChip.holding, hk]

/-- The full-chain write of a new CACHE leaves it in both stages. -/
theorem fullWrite_holding {e : Engine} {c : OutputChip} {n : Nat} (hc : e.attached = .outputChip c)
    (hn : e.params.n = n) (hs : c.shift.length = 8 * n) (hl : e.latchQ = .low) (ca : List Byte) :
    (Engine.fullWrite { e with cache := ca }).attached =
      .outputChip (.holding n (Engine.fullWrite { e with cache := ca }).cache) := by
  subst hn
  rw [outputChip_fullWrite (e := { e with cache := ca }) hc hs hl, fullWrite_eq, emits_cache]
  rfl

/-- The events of OUT.INIT before its full-chain write leave the chip as it was, and the latch line low. -/
theorem outInitEvents_chip {e : Engine} {c : OutputChip} (hc : e.attached = .outputChip c) :
    (e.emits outInitEvents).attached = .outputChip c ∧ (e.emits outInitEvents).latchQ = .low := by
  simp [outInitEvents, Engine.attachedAfter, hc, OutputChip.react, Engine.drive, Level.ofBool]

/-- Every body that ends with OK and writes the chain leaves its CACHE in both stages. OUT.INIT drives the latch line low itself. -/
theorem body_holding {i : Instr} {e : Engine} {c : OutputChip} (hc : e.attached = .outputChip c)
    (hs : c.shift.length = 8 * e.params.n) (hl : i.isInit = true ∨ e.latchQ = .low) (hw : writesChain i = true)
    (hown : ownStatus i e = 0#32) :
    (bodyOf i e).attached = .outputChip (.holding e.params.n (bodyOf i e).cache) := by
  cases i with
  | outInit =>
    have hcap : capabilitiesPresent .oec e.params.bound = true := by simpa [ownStatus] using hown
    obtain ⟨hchip, hlatch⟩ := outInitEvents_chip hc
    have hn : (e.emits outInitEvents).params.n = e.params.n := by rw [emits_params]
    rw [bodyOf, outInit_ok hcap]
    generalize e.emits outInitEvents = x at hchip hlatch hn ⊢
    simpa only [finish_attached, finish_cache] using fullWrite_holding hchip hn hs hlatch _
  | outWritebyte data =>
    have hn : e.params.n = 1 := by simpa [ownStatus] using hown
    rw [bodyOf, outWritebyte_ok hn, finish_attached, finish_cache]
    exact fullWrite_holding hc rfl hs (hl.resolve_left nofun) _
  | outWriteword data =>
    have hn : e.params.n = 2 := by simpa [ownStatus] using hown
    rw [bodyOf, outWriteword_ok hn, finish_attached, finish_cache]
    exact fullWrite_holding hc rfl hs (hl.resolve_left nofun) _
  | outWriteall len =>
    have hlen : len = e.params.n := by simpa [ownStatus] using hown
    rw [bodyOf, Engine.outWriteall, if_pos hlen, finish_attached, finish_cache]
    exact fullWrite_holding hc rfl hs (hl.resolve_left nofun) _
  | outWritebit idx v =>
    obtain ⟨hidx, hv⟩ : idx < e.params.n * 8 ∧ arrayBit e.cache idx ≠ v := by
      simp only [ownStatus] at hown
      split_ifs at hown with hidx hv
      · exact absurd hown (by decide)
      · exact absurd hown (by decide)
      · exact ⟨Nat.lt_of_not_le hidx, hv⟩
    rw [bodyOf, outWritebit_ok hidx hv, finish_attached, finish_cache]
    exact fullWrite_holding hc rfl hs (hl.resolve_left nofun) _
  | inInit | inLoad | inReadbyte | inReadword | inReadall | inReadbit | outEnable | outDisable | outDeinit => cases hw

/-- When a command ends with OK: it is the engine's, the engine accepts it, and its own check passes (60_exceptions.md R208). -/
theorem accepted_of_status {i : Instr} {e : Engine} (h : statusByPriority i e = 0#32) :
    e.params.kind = i.kind ∧ (i.isInit = true ∨ e.ready = true) ∧ ownStatus i e = 0#32 := by
  unfold statusByPriority at h
  split_ifs at h with hkind hacc
  · exact absurd h (by decide)
  · exact absurd h (by decide)
  · refine ⟨(not_not.mp hkind).symm, ?_, h⟩
    by_contra hnot
    exact hacc (by simpa using hnot)

/-- A command that writes the chain and ends with OK leaves its CACHE in both stages of the output chip. -/
theorem result_holding {i : Instr} {e : Engine} {c : OutputChip} (hc : e.attached = .outputChip c) (hinv : e.Inv)
    (hkind : e.params.kind = .oec) (hw : writesChain i = true) (hst : statusByPriority i e = 0#32) :
    (resultOf i e).status = 0#32 ∧
    (resultOf i e).attached = .outputChip (.holding e.params.n (resultOf i e).cache) := by
  obtain ⟨hk, hacc, hown⟩ := accepted_of_status hst
  have hlatch : i.isInit = true ∨ e.latchQ = .low := hacc.imp_right fun hr => by
    obtain ⟨_, _, hlow, _⟩ := (kind_oec_lines hkind).mp (hinv.lines hr)
    exact hlow
  rw [← own_begin] at hown
  obtain ⟨_, hdone⟩ := done_of_own hown
  rw [resultOf_body hk hacc]
  exact ⟨done_status hdone, body_holding (e := e.begin) hc (hinv.shift_length hc) hlatch hw hown⟩

/-- Settles O35: both stages hold CACHE by bit index (`result_holding`). -/
theorem fullChainWriteReachesTheChip : Obligations.FullChainWriteReachesTheChip := by
  intro i s e c hcur hkind hc hinv hw hst
  obtain ⟨hok, hatt⟩ := result_holding hc hinv hkind hw hst
  refine ⟨_, _, exec_eq hcur i, hok, hatt, by simp [OutputChip.holding], by simp [OutputChip.holding], fun k hk => ?_⟩
  obtain ⟨hstorage, hshift⟩ := holding_getElem? (resultOf i e).cache hk
  rw [List.getD_eq_getElem?_getD, List.getD_eq_getElem?_getD, hstorage, hshift]
  exact ⟨rfl, rfl⟩

/-! Sequences of OUT.WRITEBIT (R159). -/

/-- A ready OEC of `n` chips that meets the invariants, with the reference output chip. -/
structure Engine.ReadyOnChip (n : Nat) (e : Engine) : Prop where
  kind : e.params.kind = .oec
  width : e.params.n = n
  ready : e.ready = true
  inv : e.Inv
  chip : ∃ c, e.attached = .outputChip c

/-- The storage stage of the output chip holds CACHE. -/
def Engine.StorageHoldsCache (e : Engine) : Prop :=
  ∃ c, e.attached = .outputChip c ∧ ∀ i, i < e.params.n * 8 → c.storage[i]? = some (arrayBit e.cache i)

theorem storageHoldsCache_of_holding {n : Nat} {e : Engine} (hn : e.params.n = n)
    (h : e.attached = .outputChip (.holding n e.cache)) : e.StorageHoldsCache := by
  refine ⟨_, h, fun i hi => ?_⟩
  obtain ⟨hstorage, _⟩ := holding_getElem? e.cache (n := n) (k := i) (by omega)
  exact hstorage

/-- The engine after a list of OUT.WRITEBIT commands. -/
def Engine.afterWritebits (ws : List (Nat × Bool)) (e : Engine) : Engine :=
  resultAll (ws.map fun w => .outWritebit w.1 w.2) e

theorem afterWritebits_append (ws vs : List (Nat × Bool)) (e : Engine) :
    e.afterWritebits (ws ++ vs) = (e.afterWritebits ws).afterWritebits vs := by
  simp only [Engine.afterWritebits, List.map_append, resultAll_append]

/-- The value of the last write to bit `i` in a list of writes, if any. -/
def lastWritten (ws : List (Nat × Bool)) (i : Nat) : Option Bool := (ws.filter fun w => w.1 == i).getLast?.map Prod.snd

theorem lastWritten_cons (w : Nat × Bool) (ws : List (Nat × Bool)) (i : Nat) (b : Bool) :
    (lastWritten (w :: ws) i).getD b = (lastWritten ws i).getD (if i = w.1 then w.2 else b) := by
  unfold lastWritten
  by_cases h : w.1 = i
  · rw [List.filter_cons_of_pos (by simpa using h), List.getLast?_cons, if_pos h.symm]
    cases (ws.filter fun w => w.1 == i).getLast? <;> rfl
  · rw [List.filter_cons_of_neg (by simpa using h), if_neg (Ne.symm h)]

section WritebitOnChip

variable {n idx : Nat} {e : Engine} (h : e.ReadyOnChip n) (hidx : idx < n * 8) (v : Bool)

include h hidx

/-- OUT.WRITEBIT on such an engine: UNCHANGED and no event, or OK and the new CACHE in both stages. -/
theorem Engine.ReadyOnChip.result_cases :
    resultOf (.outWritebit idx v) e = { e with status := 0x01#32, trace := [] } ∨
    (resultOf (.outWritebit idx v) e).attached = .outputChip (.holding n (resultOf (.outWritebit idx v) e).cache) := by
  obtain ⟨hkind, rfl, hr, hinv, c, hc⟩ := h
  by_cases hv : arrayBit e.cache idx = v
  · exact .inl (result_outWritebit_same hkind hr hidx hv)
  · have hrange : ¬ e.params.n * 8 ≤ idx := Nat.not_le_of_lt hidx
    have hst : statusByPriority (.outWritebit idx v) e = 0#32 := by
      simp [statusByPriority, hkind, hr, Instr.kind, ownStatus, hrange, hv]
    obtain ⟨_, hhold⟩ := result_holding hc hinv hkind rfl hst
    exact .inr hhold

theorem Engine.ReadyOnChip.outWritebit : (resultOf (.outWritebit idx v) e).ReadyOnChip n := by
  have hp := result_params (.outWritebit idx v) e
  refine ⟨hp ▸ h.kind, hp ▸ h.width, ?_, result_inv h.inv (by rw [h.width]; omega) _, ?_⟩
  · obtain ⟨hr, _⟩ := result_outWritebit_cache v h.kind h.ready (h.inv.cache_length h.kind) (h.width ▸ hidx)
    exact hr
  · rcases h.result_cases hidx v with hsame | hhold
    · rw [hsame]
      exact h.chip
    · exact ⟨_, hhold⟩

/-- A command that ends with OK leaves CACHE in the storage stage, whatever that held. -/
theorem Engine.ReadyOnChip.storage_of_ok (hok : (resultOf (.outWritebit idx v) e).status = 0#32) :
    (resultOf (.outWritebit idx v) e).StorageHoldsCache := by
  rcases h.result_cases hidx v with hsame | hhold
  · rw [hsame] at hok
    exact absurd (show 0x01#32 = 0#32 from hok) (by decide)
  · exact storageHoldsCache_of_holding ((result_params _ e).symm ▸ h.width) hhold

/-- A command keeps CACHE in the storage stage. -/
theorem Engine.ReadyOnChip.storage_step (hold : e.StorageHoldsCache) :
    (resultOf (.outWritebit idx v) e).StorageHoldsCache := by
  rcases h.result_cases hidx v with hsame | hhold
  · rw [hsame]
    exact hold
  · exact storageHoldsCache_of_holding ((result_params _ e).symm ▸ h.width) hhold

end WritebitOnChip

/-- A list of commands in range keeps what holds of such an engine. -/
theorem readyOnChip_afterWritebits {n : Nat} (ws : List (Nat × Bool)) : ∀ {e : Engine}, e.ReadyOnChip n →
    (∀ w ∈ ws, w.1 < n * 8) →
    (e.afterWritebits ws).ReadyOnChip n ∧ (e.StorageHoldsCache → (e.afterWritebits ws).StorageHoldsCache) ∧
    ∀ i, arrayBit (e.afterWritebits ws).cache i = (lastWritten ws i).getD (arrayBit e.cache i) := by
  induction ws with
  | nil => exact fun h _ => ⟨h, id, fun _ => rfl⟩
  | cons w ws ih =>
    intro e h hws
    obtain ⟨hidx, hrest⟩ := List.forall_mem_cons.mp hws
    obtain ⟨hready, hstorage, hbits⟩ := ih (h.outWritebit hidx w.2) hrest
    obtain ⟨_, _, hbit⟩ := result_outWritebit_cache w.2 h.kind h.ready (h.inv.cache_length h.kind) (h.width ▸ hidx)
    refine ⟨hready, fun hold => hstorage (h.storage_step hidx w.2 hold), fun i => ?_⟩
    rw [lastWritten_cons, ← hbit]
    exact hbits i

/-- Settles O29: the bits and the storage stage after the list (`readyOnChip_afterWritebits`); a command of it that ended with OK
put CACHE into the storage stage (`ReadyOnChip.storage_of_ok`), and those after it keep it there. -/
theorem writebitSequencesKeepTheChipEqualToTheCache : Obligations.WritebitSequencesKeepTheChipEqualToTheCache := by
  intro ws s e c hcur hkind hr hinv hc hws
  have h : e.ReadyOnChip e.params.n := ⟨hkind, rfl, hr, hinv, c, hc⟩
  obtain ⟨hafter, hkeep, hbits⟩ := readyOnChip_afterWritebits ws h hws
  obtain ⟨c', hc'⟩ := hafter.chip
  refine ⟨e.afterWritebits ws, c', execAll_eq _ hcur, hc', (hafter.inv.cache_length hafter.kind).trans hafter.width,
    fun i _ => hbits i, fun hstart => ?_⟩
  have hholds : (e.afterWritebits ws).StorageHoldsCache := by
    rcases hstart with ⟨pre, w, post, t, u, x, rfl, hpre, hw, hux, hok⟩ | hstorage
    · obtain ⟨hpres, hrest⟩ := List.forall_mem_append.mp hws
      obtain ⟨hidx, hpost⟩ := List.forall_mem_cons.mp hrest
      obtain ⟨hmid, _, _⟩ := readyOnChip_afterWritebits pre h hpres
      obtain rfl : s.put (e.afterWritebits pre) = t := Host.Outcome.next.inj ((execAll_eq _ hcur).symm.trans hpre)
      have hcurt := current_put hcur (e.afterWritebits pre)
      obtain rfl := Host.Outcome.next.inj ((exec_eq hcurt _).symm.trans hw)
      obtain rfl := Option.some.inj ((current_put hcurt _).symm.trans hux)
      obtain ⟨_, hkeeps, _⟩ := readyOnChip_afterWritebits post (hmid.outWritebit hidx w.2) hpost
      rw [afterWritebits_append]
      exact hkeeps (hmid.storage_of_ok hidx w.2 hok)
    · exact hkeep ⟨c, hc, hstorage⟩
  obtain ⟨q, hq, hstorage⟩ := hholds
  obtain rfl : c' = q := Attached.outputChip.inj (hc'.symm.trans hq)
  exact fun i hi => hstorage i (by rwa [hafter.width])

end Sys2Proof.Machine
end

section
/-! PROOFS. How commands end (60_exceptions.md): the result code (R200, R206, R208), what a failed command leaves (R207), the outputs
of the reference output chip (R219), the loopback round trip (R220), the configurations refused (R225) and idle engines (R214). -/

namespace Sys2Proof.Machine

/-! The result code (R200, R206, R208). -/

/-- Settles O6: every command leaves one of the codes of R200 (`result_code`) and the parameters (`result_params`). -/
theorem everyCommandCompletesWithACode : Obligations.EveryCommandCompletesWithACode := by
  intro i s e hcur
  obtain ⟨c, hc⟩ := result_code i e
  exact ⟨resultOf i e, exec_eq hcur i, result_params i e, hc ▸ code_le c⟩

/-- The code of a command that the engine accepts is that of its own check. -/
theorem statusByPriority_of_accepted {i : Instr} {e : Engine} (hk : e.params.kind = i.kind)
    (hacc : i.isInit = true ∨ e.ready = true) : statusByPriority i e = ownStatus i e := by
  have hnot : ¬ (i.isInit = false ∧ e.ready = false) := fun ⟨hi, hr⟩ => by simp [hi, hr] at hacc
  rw [statusByPriority, if_neg (not_not.mpr hk.symm), if_neg hnot]

/-- The code a command ends with (R208). -/
theorem result_status (i : Instr) (e : Engine) : (resultOf i e).status = statusByPriority i e := by
  rcases result_cases i e with ⟨hk, hr⟩ | ⟨hk, hi, hready, hr⟩ | ⟨hk, hacc, hearly⟩ | ⟨hk, hacc, evs, hdone⟩
  · rw [hr, statusByPriority, if_pos (Ne.symm hk)]
  · rw [hr, statusByPriority, if_neg (not_not.mpr hk.symm), if_pos ⟨hi, hready⟩]
  · rw [early_status hearly, statusByPriority_of_accepted hk hacc, own_begin]
  · rw [done_status hdone, statusByPriority_of_accepted hk hacc, ← own_begin, hdone.own]

/-- Settles O7, by `result_status`. -/
theorem resultCodeFollowsThePriority : Obligations.ResultCodeFollowsThePriority :=
  fun i _ e hcur => ⟨resultOf i e, exec_eq hcur i, result_status i e⟩

/-! What a failed command leaves (R207). -/

/-- Settles O8: BAD_COMMAND and NOT_READY write STATUS and empty the trace, a body that ends early leaves what `Early` says, and any
other end is with OK. -/
theorem failedCommandChangesNothingElse : Obligations.FailedCommandChangesNothingElse := by
  intro i s e hcur
  refine ⟨resultOf i e, exec_eq hcur i, fun hfail => ?_⟩
  rcases result_cases i e with ⟨_, hr⟩ | ⟨_, _, _, hr⟩ | ⟨_, _, hearly⟩ | ⟨_, _, evs, hdone⟩
  · rw [hr]
    rfl
  · rw [hr]
    rfl
  · rw [early_status hearly]
    exact hearly.eq
  · exact absurd (done_status hdone) hfail

/-! The outputs of the reference output chip (R219). -/

section OutputPin
variable {e : Engine} {c : OutputChip} (hc : e.attached = .outputChip c)
include hc

theorem outputPin_of_high (hoe : e.oeQ = .high) {p : Nat} {b : Bool} (hp : c.storage[p]? = some b) :
    e.outputPin p = .drives b := by
  simp only [Engine.outputPin, hc, hoe, hp]

theorem outputPin_of_low (hoe : e.oeQ = .low) (p : Nat) : e.outputPin p = .highZ := by
  simp only [Engine.outputPin, hc, hoe]

theorem outputPin_of_undriven (hoe : e.oeQ = .undriven) (p : Nat) : e.outputPin p = .unspecified := by
  simp only [Engine.outputPin, hc, hoe]

/-- A command of R160 with READY = 1 drives the output-enable line and leaves both stages of the chip. -/
theorem exec_outputEnable_chip {i : Instr} {b : Bool} {s : State} (hcur : s.current = some e)
    (hkind : e.params.kind = i.kind) (hr : e.ready = true)
    (hbody : bodyOf i e.begin = (e.begin.emit (.setOutputEnable b)).finish .ok) :
    ∃ e', exec i s = .next (s.put e') ∧ e'.attached = .outputChip c ∧ e'.oeQ = Level.ofBool b := by
  refine ⟨_, exec_of_accepted hcur hkind (.inr hr), ?_⟩
  rw [hbody, outputEnable_done]
  exact ⟨hc, rfl⟩

end OutputPin

/-- Settles O37: the outputs by OE_Q (the lemmas on `outputPin`), and OE_Q after the three commands (`exec_outputEnable_chip`). -/
theorem outputEnableGatesTheStorageStage : Obligations.OutputEnableGatesTheStorageStage := by
  intro s e c hcur hkind hc
  refine ⟨fun hoe _ _ => outputPin_of_high hc hoe, outputPin_of_low hc, outputPin_of_undriven hc,
    fun hr => ?_, fun hr => ?_, fun hr => ?_⟩
  · obtain ⟨e', hexec, hc', hoe⟩ := exec_outputEnable_chip (i := .outEnable) hc hcur hkind hr rfl
    exact ⟨e', hexec, hc', fun _ _ => outputPin_of_high hc' hoe⟩
  · obtain ⟨e', hexec, hc', hoe⟩ := exec_outputEnable_chip (i := .outDisable) hc hcur hkind hr rfl
    exact ⟨e', hexec, hc', outputPin_of_low hc' hoe⟩
  · obtain ⟨e', hexec, hc', hoe⟩ := exec_outputEnable_chip (i := .outDeinit) hc hcur hkind hr rfl
    exact ⟨e', hexec, hc', outputPin_of_low hc' hoe⟩

/-! The loopback round trip (R220). -/

/-- A command whose operands fit is what its word decodes to on an engine of its group (30_encoding.md R77). -/
theorem decode_encode_of_kind {i : Instr} {k : Kind} (hk : i.kind = k) (hwf : i.wellFormed = true) :
    decode k (encode i) = .ok i := by
  obtain ⟨hdec, _⟩ := encodedCommandDecodesToItself i hwf
  rwa [hk] at hdec

/-- In an admitted system, an OEC and an IEC of the same N in loopback wiring, each found at its base address. -/
structure State.Looped (s : State) (o k : Nat) (eo ek : Engine) (q : OutputChip) (c : InputChip) : Prop where
  admitted : s.admitted = true
  output_engine : s.engines[o]? = some eo
  input_engine : s.engines[k]? = some ek
  output_kind : eo.params.kind = .oec
  input_kind : ek.params.kind = .iec
  output_chip : eo.attached = .outputChip q
  input_chip : ek.attached = .inputChip c
  loop : c.loop = some o
  same_width : eo.params.n = ek.params.n
  find_output : s.find eo.params.base = some o
  find_input : s.find ek.params.base = some k

/-- A command on the OEC and then one on the IEC looped back to it: the second runs with the storage stage that the first leaves as
its chip's inputs. -/
theorem State.Looped.steps {s : State} {o k : Nat} {eo ek : Engine} {q q' : OutputChip} {c : InputChip} {i j : Instr}
    {rest : List Action} (h : s.Looped o k eo ek q c) (hi : decode .oec (encode i) = .ok i)
    (hj : decode .iec (encode j) = .ok j) (hq' : (resultOf i eo).attached = .outputChip q')
    (hpend : s.pending = assemble eo i :: assemble ek j :: rest) :
    ∃ t u, step s = .next t ∧ step t = .next u ∧ u.engines[o]? = some (resultOf i eo) ∧
      u.engines[k]? = some (resultOf j { ek with attached := .inputChip { c with inputs := q'.storage } }) ∧
      u.pending = rest := by
  have hne : o ≠ k := by
    rintro rfl
    obtain rfl : eo = ek := Option.some.inj (h.output_engine.symm.trans h.input_engine)
    exact absurd (h.output_kind.symm.trans h.input_kind) (by decide)
  have hwrite := step_command h.admitted hpend h.find_output h.output_engine (h.output_kind ▸ hi)
  rw [wire_outputChip h.output_chip] at hwrite
  generalize ht : State.mk _ _ _ _ = t at hwrite
  have hto : t.engines[o]? = some (resultOf i eo) := by
    rw [← ht]
    exact List.getElem?_set_self (List.getElem?_eq_some_iff.mp h.output_engine).1
  have htk : t.engines[k]? = some ek := by
    rw [← ht, ← h.input_engine]
    exact List.getElem?_set_ne hne
  have hread := step_command (admitted_of_step hwrite) (by rw [← ht]; rfl)
    ((find_of_params (parametersNeverChange _ _ hwrite) _).trans h.find_input) htk (h.input_kind ▸ hj)
  rw [wire_inputChip_eq h.input_chip,
    wiredInputs_loop h.loop hto hq' (by rw [result_params, h.same_width])] at hread
  exact ⟨t, _, hwrite, hread, (List.getElem?_set_ne hne.symm).trans hto,
    List.getElem?_set_self (List.getElem?_eq_some_iff.mp htk).1, rfl⟩

/-- OUT.WRITEALL N ends with OK and leaves the bits of XBUF in the output chip (41_output_chain.md R155, R144). -/
theorem outWriteall_holding {e : Engine} {q : OutputChip} (hinv : e.Inv) (hkind : e.params.kind = .oec)
    (hready : e.ready = true) (hq : e.attached = .outputChip q) :
    (resultOf (.outWriteall e.params.n) e).status = 0x00#32 ∧
    (resultOf (.outWriteall e.params.n) e).attached = .outputChip (.holding e.params.n e.xbuf) := by
  have hstatus : statusByPriority (.outWriteall e.params.n) e = 0x00#32 :=
    (statusByPriority_of_accepted hkind (.inr hready)).trans (if_pos rfl)
  have hcache : (resultOf (.outWriteall e.params.n) e).cache = e.xbuf := by
    have hbody := outWriteall_ok (e := e.begin) hinv.xbuf_length
    rw [begin_params] at hbody
    rw [resultOf_body (i := .outWriteall _) hkind (.inr hready), bodyOf, hbody, finish_cache, fullWrite_eq, emits_cache,
      begin_xbuf]
  obtain ⟨hok, hchip⟩ := result_holding hq hinv hkind rfl hstatus
  rw [hcache] at hchip
  exact ⟨hok, hchip⟩

/-- IN.READALL N ends with OK and fills XBUF with the inputs of the input chip by bit index (40_input_chain.md R114, R117). -/
theorem inReadall_inputs {e : Engine} {c : InputChip} (hkind : e.params.kind = .iec) (hready : e.ready = true)
    (hc : e.attached = .inputChip c) (hx : e.xbuf.length = e.params.n) :
    (resultOf (.inReadall e.params.n) e).status = 0x00#32 ∧
    Memory.wf e.params.n (resultOf (.inReadall e.params.n) e).xbuf ∧
    ∀ i, i < 8 * e.params.n → arrayBit (resultOf (.inReadall e.params.n) e).xbuf i = c.inputs.getD i false := by
  have hbody := inReadall_ok (e := e.begin) hx
  rw [inputChip_samples (e := e.begin) hc, begin_params] at hbody
  rw [resultOf_body (i := .inReadall _) hkind (.inr hready), bodyOf, hbody]
  refine ⟨rfl, packBytes_length _ _, fun i hi => ?_⟩
  exact (arrayBit_packBytes _ _ i (capture_length _ c) hi).trans (capture_pos c hi)

/-- A chip input at a place of the storage stage that holds `cache` is that bit of it. -/
theorem holding_storage_getD {n i : Nat} (cache : List Byte) (hi : i < 8 * n) :
    (OutputChip.holding n cache).storage.getD i false = arrayBit cache i := by
  obtain ⟨hstorage, _⟩ := holding_getElem? cache hi
  rw [List.getD_eq_getElem?_getD, hstorage, Option.getD_some]

/-- Settles O38: OUT.WRITEALL leaves XBUF of the OEC in the storage stage (`outWriteall_holding`), the wiring makes that the inputs of
the input chip (`State.Looped.steps`), and IN.READALL gives them back by bit index (`inReadall_inputs`). -/
theorem loopbackRoundTripGivesThePatternBack : Obligations.LoopbackRoundTripGivesThePatternBack := by
  intro s o k eo ek q c rest hadm hinv ho hk hko hki hro hrk hq hc hloop hn hfo hfk hpend
  have hlooped : s.Looped o k eo ek q c := ⟨hadm, ho, hk, hko, hki, hq, hc, hloop, hn, hfo, hfk⟩
  have hinvo : eo.Inv := hinv eo (List.mem_of_getElem? ho)
  have hinvk : ek.Inv := hinv ek (List.mem_of_getElem? hk)
  obtain ⟨_, hmax, _⟩ := admitted_engine hadm (List.mem_of_getElem? ho)
  have hcount : eo.params.n < 65536 := by omega
  obtain ⟨hoko, hchip⟩ := outWriteall_holding hinvo hko hro hq
  obtain ⟨t, u, hst, htu, huo, huk, hrest⟩ := hlooped.steps
    (decode_encode_of_kind (i := .outWriteall eo.params.n) rfl (decide_eq_true hcount))
    (decode_encode_of_kind (i := .inReadall ek.params.n) rfl (decide_eq_true (hn ▸ hcount))) hchip hpend
  obtain ⟨hokk, hlen, hbits⟩ :=
    inReadall_inputs (e := { ek with attached := .inputChip { c with inputs := _ } }) hki hrk rfl hinvk.xbuf_length
  refine ⟨t, u, _, _, hst, htu, huo, huk, hoko, hokk, memory_bit_ext hlen (hinvo.xbuf_length.trans hn) fun i hi => ?_, hrest⟩
  exact (hbits i hi).trans (holding_storage_getD eo.xbuf (hn ▸ hi))

/-! The configurations refused (R225) and idle engines (R214). -/

theorem step_of_not_admitted {s : State} (h : ¬ s.admitted = true) : step s = .refused .badConfiguration := if_neg h

/-- Compatible engines have no line in common (R225). -/
theorem not_mem_lines_of_compatible {p q : Params} (h : Params.compatible p q = true) {l : Nat} (hp : l ∈ p.lines) :
    l ∉ q.lines := by
  simp only [Params.compatible, Bool.and_eq_true, List.all_eq_true] at h
  obtain ⟨hlines, _⟩ := h
  simpa using hlines l hp

/-- Two engines of an admitted system have no line in common, whichever comes first. -/
theorem lines_disjoint_of_admitted {s : State} (h : s.admitted = true) {i j : Nat} {p q : Engine} (hij : i ≠ j)
    (hi : s.engines[i]? = some p) (hj : s.engines[j]? = some q) {l : Nat} (hp : l ∈ p.params.lines) :
    l ∉ q.params.lines := by
  have hall : allCompatible (s.engines.map Engine.params) = true := (Bool.and_eq_true_iff.mp h).2
  have hparams : ∀ {m : Nat} {e : Engine}, s.engines[m]? = some e → (s.engines.map Engine.params)[m]? = some e.params := by
    intro m e hm
    rw [List.getElem?_map, hm, Option.map_some]
  rcases Nat.lt_or_gt_of_ne hij with hlt | hgt
  · exact not_mem_lines_of_compatible (compatible_of_allCompatible hall hlt (hparams hi) (hparams hj)) hp
  · exact fun hq => not_mem_lines_of_compatible (compatible_of_allCompatible hall hgt (hparams hj) (hparams hi)) hq hp

/-- Settles O44: an admitted system has disjoint lines (`lines_disjoint_of_admitted`) and every N in range (`admitted_engine`). -/
theorem configurationsOutsideTheSpecAreRefused : Obligations.ConfigurationsOutsideTheSpecAreRefused := by
  refine ⟨fun s i j l p q hij hi hj hp hq => step_of_not_admitted fun hadm => ?_,
    fun s e he hn => step_of_not_admitted fun hadm => ?_⟩
  · exact lines_disjoint_of_admitted hadm hij hi hj hp hq
  · obtain ⟨hmin, hmax, _⟩ := admitted_engine hadm he
    omega

/-- Settles O46: with no action to come the step answers the state it was given. -/
theorem idleEnginesKeepTheirState : Obligations.IdleEnginesKeepTheirState := by
  intro s hadm hpend
  simp only [step, hadm, hpend, if_true]

end Sys2Proof.Machine
end

section
/-! PROOFS. Reset and hazards (70_reset_and_hazards.md): what the reset of one engine leaves (R240), and the delay units, events and
samples of every command (R251). -/

namespace Sys2Proof.Machine

/-! Reset of one engine (R240). -/

theorem atReset_cache_of_oec {p : Params} (h : p.kind = .oec) (f : Nat) (a : Attached) :
    (Engine.atReset p f a).cache = List.replicate p.n 0x00#8 := by
  simp only [Engine.atReset, h]

/-- The reset of an engine that is there puts it at its reset values, with its parameters and its pins. -/
theorem perform_reset {s : State} {k : Nat} {e : Engine} (h : s.engines[k]? = some e) :
    State.perform (.reset k) s =
      .next { s with engines := s.engines.set k (Engine.atReset e.params e.fresh e.attached) } := by
  simp only [State.perform, h]

/-- Settles O45: the step puts the engine at its reset values (`perform_reset`), and a step leaves every engine but the one its
action is about (`stepTouchesOnlyTheAddressedEngine`). -/
theorem resetRestoresOneEngine : Obligations.ResetRestoresOneEngine := by
  intro s k e rest hadm hpend hk
  have hstep := (step_action hadm hpend).trans (perform_reset hk)
  obtain ⟨hothers, hrest⟩ := stepTouchesOnlyTheAddressedEngine s _ _ rest k hpend rfl hstep
  have hself := List.getElem?_set_self (a := Engine.atReset e.params e.fresh e.attached) (List.getElem?_eq_some_iff.mp hk).1
  exact ⟨_, _, hstep, hself, hrest, rfl, rfl, rfl, atReset_xbuf_wf _ _ _, fun hkind => atReset_cache_of_oec hkind _ _,
    rfl, rfl, rfl, rfl, rfl, rfl, rfl, rfl, hothers⟩

/-! Delay units, events and samples (R251). -/

/-- The counts of a command's trace: those of the table when it ends with OK, none otherwise. -/
theorem result_counts (i : Instr) (e : Engine) :
    countsOf (resultOf i e).trace = if (resultOf i e).status = 0x00#32 then okCounts e.params.n i else (0, 0, 0) := by
  rcases result_cases i e with ⟨_, hr⟩ | ⟨_, _, _, hr⟩ | ⟨_, _, hearly⟩ | ⟨_, _, evs, hdone⟩
  · rw [hr]
    rfl
  · rw [hr]
    rfl
  · have htrace : (resultOf i e).trace = [] := by rw [hearly.eq, begin_trace]
    have hstatus : (resultOf i e).status ≠ 0x00#32 := early_status hearly ▸ hearly.own
    rw [htrace, if_neg hstatus]
    rfl
  · have htrace : (resultOf i e).trace = evs := by rw [hdone.eq, emits_trace, begin_trace, List.nil_append]
    rw [htrace, if_pos (done_status hdone)]
    exact hdone.counts

/-- Settles O47, by `result_counts`. -/
theorem traceCountsAreThoseOfTheTable : Obligations.TraceCountsAreThoseOfTheTable :=
  fun i _ e hcur => ⟨resultOf i e, exec_eq hcur i, result_counts i e⟩

end Sys2Proof.Machine
end
